-- ==== Sys2Proof/Word.lean ====
section
/-! DEFINITION. The widths of the block's data: bytes of table memory, 16-bit angle and table fields, and the
32-bit words of the command interface (`00_scope.md` R8, Table CFG `W` = 32 and `ANGLE_BITS` = 16). -/

namespace Sys2Proof

/-- One byte of table memory (R40). -/
abbrev Byte := BitVec 8

/-- A 16-bit field: an angle operand, or one entry of the sine table (R26, R62). -/
abbrev Half := BitVec 16

/-- A word: 32 bits (R8, `Cfg.W`). -/
abbrev Word := BitVec 32

end Sys2Proof
end

