-- ==== Sys2Proof/Syntax.lean ====
section
/-! DEFINITION. The commands of `30_encoding.md` Table OPC, one constructor per row of spec/opcode_table.json, with
the operand words of Table SLOTS; the command as the interface carries it (R25, R60); and the decoder's refusal (R66).
Each operand is the whole 32-bit word of its slot, so nothing is read or dropped before the meaning (R62). -/

namespace Sys2Proof

/-- A decoded command: Table OPC and Table SLOTS (R63, R64). -/
inductive Instr where
  /-- CONV fs, fd, v (R81): FS and FD are the 5-bit format fields, `v` is `A[0]`. -/
  | conv (fs fd : BitVec 5) (v : Word)
  /-- FMUL a, b (R82). -/
  | fmul (a b : Word)
  /-- FDIV a, b (R83): dividend `a`, divisor `b`. -/
  | fdiv (a b : Word)
  /-- FABS a (R84). -/
  | fabs (a : Word)
  /-- SIN angle (R101): bits 15:0 of the word are the angle. -/
  | sin (angle : Word)
  /-- COS angle (R102). -/
  | cos (angle : Word)
  /-- CART2POL re, im (R110). -/
  | cart2pol (re im : Word)
  /-- CLARKE a, b, c (R130): `c` is an operand that is not read. -/
  | clarke (a b c : Word)
  /-- ISQRT n (R140). -/
  | isqrt (n : Word)
  /-- INTERP2D x, N, base (R152). -/
  | interp2d (x n base : Word)
  /-- INTERP3D x, y, Nx, Ny, xbase, ybase, zbase (R171). -/
  | interp3d (x y nx ny xbase ybase zbase : Word)
  deriving DecidableEq, Repr

/-- An accepted command: its command word and its seven operand words (R25). -/
structure Command where
  cmd : Word
  a : Vector Word 7
  deriving DecidableEq, Repr

/-- Why a command word, or a stream of words, is no command. -/
inductive DecodeError where
  /-- `RESERVED_ENCODING` (R65, R66): raised by the decoder. Safe: the word gets no meaning. -/
  | reservedEncoding (cmd : Word)
  /-- A stream of words ends before the `n(op)` operand words (R60): raised by `decodeStream`. Safe. -/
  | missingOperands (cmd : Word)
  /-- A stream of words holds no command word (R60): raised by `decodeStream`. Safe. -/
  | noCommand
  deriving DecidableEq, Repr

end Sys2Proof
end

