-- ==== Sys2Proof/WellFormed.lean ====
section
/-! DEFINITION. Which `Instr` terms are commands: the only operand a command word can spell wrongly is a format
number of CONV, legal 0..30 (`30_encoding.md` R61, R65). -/

namespace Sys2Proof

/-- `i` is a command of Table OPC: CONV's formats are 0..30 (R61); every other operand is a whole word (R62). -/
def Instr.wellFormed (i : Instr) : Bool :=
  match i with
  | .conv fs fd _ => decide (fs.toNat ≤ 30) && decide (fd.toNat ≤ 30)
  | .fmul _ _ => true
  | .fdiv _ _ => true
  | .fabs _ => true
  | .sin _ => true
  | .cos _ => true
  | .cart2pol _ _ => true
  | .clarke _ _ _ => true
  | .isqrt _ => true
  | .interp2d _ _ _ => true
  | .interp3d _ _ _ _ _ _ _ => true

end Sys2Proof
end

