-- ==== Sys2Proof/Decode.lean ====
section
/-! DEFINITION. The decoder of `30_encoding.md` R65, total on every command word and rejecting by name (R66), the
word counts of Table SLOTS, the encoder written from Table FMT and Table OPC (R61, R63), and the reading of a command
from a stream of words (R60, R70) or from the opcode table's numbering of bits. -/

namespace Sys2Proof

/-! ### Fields of the command word (Table FMT) -/

/-- OPC, bits 7:0. -/
def opcField (w : Word) : BitVec 8 := w.extractLsb' 0 8

/-- FS, bits 12:8. -/
def fsField (w : Word) : BitVec 5 := w.extractLsb' 8 5

/-- RSV1, bits 15:13. -/
def rsv1Field (w : Word) : BitVec 3 := w.extractLsb' 13 3

/-- FD, bits 20:16. -/
def fdField (w : Word) : BitVec 5 := w.extractLsb' 16 5

/-- RSV2, bits 31:21. -/
def rsv2Field (w : Word) : BitVec 11 := w.extractLsb' 21 11

/-- The command of Table OPC that an OPC value other than CONV's names, with the operand slots of Table SLOTS. -/
def commandOfOpc (opc : BitVec 8) (a : Vector Word 7) : Option Instr :=
  match opc.toNat with
  | 0x02 => some (.fmul a[0] a[1])
  | 0x03 => some (.fdiv a[0] a[1])
  | 0x04 => some (.fabs a[0])
  | 0x10 => some (.sin a[0])
  | 0x11 => some (.cos a[0])
  | 0x20 => some (.cart2pol a[0] a[1])
  | 0x30 => some (.clarke a[0] a[1] a[2])
  | 0x40 => some (.isqrt a[0])
  | 0x50 => some (.interp2d a[0] a[1] a[2])
  | 0x60 => some (.interp3d a[0] a[1] a[2] a[3] a[4] a[5] a[6])
  | _ => none

/-- `decode` of R65, its tests in the rule's order. -/
def decode (c : Command) : Except DecodeError Instr :=
  if rsv2Field c.cmd ≠ 0 ∨ rsv1Field c.cmd ≠ 0 then .error (.reservedEncoding c.cmd)
  else if opcField c.cmd = 0x01 then
    if (fsField c.cmd).toNat > 30 ∨ (fdField c.cmd).toNat > 30 then .error (.reservedEncoding c.cmd)
    else .ok (.conv (fsField c.cmd) (fdField c.cmd) c.a[0])
  else if fsField c.cmd ≠ 0 ∨ fdField c.cmd ≠ 0 then .error (.reservedEncoding c.cmd)
  else
    match commandOfOpc (opcField c.cmd) c.a with
    | some i => .ok i
    | none => .error (.reservedEncoding c.cmd)

/-- `n(op)` of Table SLOTS: the operand count, from OPC alone (R60). -/
def operandCount (opc : BitVec 8) : Option Nat :=
  match opc.toNat with
  | 0x01 => some 1
  | 0x02 => some 2
  | 0x03 => some 2
  | 0x04 => some 1
  | 0x10 => some 1
  | 0x11 => some 1
  | 0x20 => some 2
  | 0x30 => some 3
  | 0x40 => some 1
  | 0x50 => some 3
  | 0x60 => some 7
  | _ => none

/-! ### The encoder -/

/-- A command word from its fields, `{RSV2 = 0, FD, RSV1 = 0, FS, OPC}` (Table FMT). -/
def commandWord (fd fs : BitVec 5) (opc : BitVec 8) : Word :=
  0#11 ++ fd ++ 0#3 ++ fs ++ opc

/-- The words of a command: the command word, then its `n(op)` operand words in slot order (R60, R70). -/
def encode (i : Instr) : List Word :=
  match i with
  | .conv fs fd v => [commandWord fd fs 0x01, v]
  | .fmul a b => [commandWord 0 0 0x02, a, b]
  | .fdiv a b => [commandWord 0 0 0x03, a, b]
  | .fabs a => [commandWord 0 0 0x04, a]
  | .sin angle => [commandWord 0 0 0x10, angle]
  | .cos angle => [commandWord 0 0 0x11, angle]
  | .cart2pol re im => [commandWord 0 0 0x20, re, im]
  | .clarke a b c => [commandWord 0 0 0x30, a, b, c]
  | .isqrt n => [commandWord 0 0 0x40, n]
  | .interp2d x n base => [commandWord 0 0 0x50, x, n, base]
  | .interp3d x y nx ny xbase ybase zbase => [commandWord 0 0 0x60, x, y, nx, ny, xbase, ybase, zbase]

/-- The command a list of words makes: the first is CMD, the next fill the operand slots, and a slot no word fills
holds 0 (log 10; a slot at or above `n(op)` is never read, R60). -/
def Command.ofWords (ws : List Word) : Command where
  cmd := ws.getD 0 0
  a := #v[ws.getD 1 0, ws.getD 2 0, ws.getD 3 0, ws.getD 4 0, ws.getD 5 0, ws.getD 6 0, ws.getD 7 0]

/-- The words of a command that belong to it: CMD and the first `n(op)` operand words; CMD alone where OPC is not in
Table OPC (R60). -/
def Command.words (c : Command) : List Word :=
  c.cmd :: c.a.toList.take ((operandCount (opcField c.cmd)).getD 0)

/-- The first command of a stream of words, and the words after it (R60, R70). -/
def decodeStream (ws : List Word) : Except DecodeError (Instr × List Word) :=
  match ws with
  | [] => .error .noCommand
  | cmd :: rest =>
    match operandCount (opcField cmd) with
    | none => .error (.reservedEncoding cmd)
    | some n =>
      if rest.length < n then .error (.missingOperands cmd)
      else
        match decode (Command.ofWords (cmd :: rest.take n)) with
        | .ok i => .ok (i, rest.drop n)
        | .error e => .error e

/-! ### The opcode table's numbering of bits -/

/-- The command whose bits are the low `nbits` bits of `w`: CMD is bits 31:0 and operand word `k` is the 32 bits from
bit 32(k+1) on; every bit at or above `nbits` is 0. -/
def commandOfBits (nbits w : Nat) : Command :=
  Command.ofWords ((List.range 8).map fun k => BitVec.ofNat 32 (w % 2 ^ nbits / 2 ^ (32 * k)))

/-- The command the decoder reads from an instruction whose bits are `w`, numbered as spec/opcode_table.json
numbers them. -/
def decodeTableWord (nbits w : Nat) : Option Instr :=
  match decode (commandOfBits nbits w) with
  | .ok i => some i
  | .error _ => none

end Sys2Proof
end

