-- ==== Sys2Proof/Config.lean ====
section
/-! DEFINITION. The build-time configuration record `Cfg` (`00_scope.md` R6, Table CFG) and the constants of
Table CFG that have one legal value. The spec leaves no value of an instruction's result undefined while the machine
goes on, so there is no free value here: every field is a build parameter, and `State` carries the record so that a
statement about every state holds for every build (log 1). -/

namespace Sys2Proof

/-- `Cfg.SHR_ROUND` (R6, R11): how a right shift of a fixed-point value rounds. -/
inductive ShrRound where
  | towardZero
  | floor
  deriving DecidableEq, Repr

/-- The two readings of an intermediate's width: `MUL_PRODUCT`, `DIV_DIVIDEND` and `INTERP_ARITH` (R6). -/
inductive Intermediate where
  | int32
  | wide
  deriving DecidableEq, Repr

/-- `Cfg.CORDIC_ZERO_SPECIAL` (R6, R115). -/
inductive ZeroSpecial where
  | enabled
  | disabled
  deriving DecidableEq, Repr

/-- `Cfg.LIT_ROUND` (R6, R80). -/
inductive LitRound where
  | nearestAway
  | towardZero
  deriving DecidableEq, Repr

/-- The fields of Table CFG whose value can be illegal; named by a refused build (R6). -/
inductive CfgField where
  | f
  | sineTable
  | cordicAtan
  | cordicGainQ16
  | invSqrt3
  deriving DecidableEq, Repr

/-- Why a build, or an assembly, is refused: R6 (an illegal `Cfg`) and R80 (`LITERAL_RANGE`). Safe: a refused build
is no machine. -/
inductive BuildRefusal where
  | illegalConfig (field : CfgField)
  | literalRange (literal : Rat)
  deriving DecidableEq, Repr

/-- The build record `Cfg` of R6. Legality of its values is `Cfg.legal` (Machine/Build.lean). -/
structure Cfg where
  /-- `F`, the fractional bits of the general format; legal 0..30. -/
  fracBits : Nat
  /-- `SINE_TABLE` = `ROM.SINE` (R26): 256 signed 16-bit Q15 samples. -/
  sineTable : List Half
  /-- `CORDIC_ATAN` = `ROM.ATAN` (R28): 14 angles in angle units. -/
  cordicAtan : List Nat
  /-- `CORDIC_GAIN_Q16` = `ROM.GAIN` (R30). -/
  cordicGainQ16 : Nat
  /-- `CORDIC_ZERO_SPECIAL` (R115). -/
  cordicZeroSpecial : ZeroSpecial
  /-- `INV_SQRT3` = `ROM.INV_SQRT3` (R31): the general-format code of 1/√3. -/
  invSqrt3 : Int
  /-- `SHR_ROUND` (R11). -/
  shrRound : ShrRound
  /-- `MUL_PRODUCT` (R82). -/
  mulProduct : Intermediate
  /-- `DIV_DIVIDEND` (R83). -/
  divDividend : Intermediate
  /-- `INTERP_ARITH` (R151). -/
  interpArith : Intermediate
  /-- `LIT_ROUND` (R80). -/
  litRound : LitRound
  deriving DecidableEq, Repr

/-- `SINE_INDEX_BITS` (Table CFG): one legal value. -/
abbrev sineIndexBits : Nat := 8

/-- `SINE_ENTRIES` = 2^`SINE_INDEX_BITS` (Table CFG). -/
abbrev sineEntries : Nat := 2 ^ sineIndexBits

/-- `ANGLE_BITS` (Table CFG): one legal value. -/
abbrev angleBits : Nat := 16

/-- `CORDIC_ITER` (Table CFG): one legal value. -/
abbrev cordicIter : Nat := 14

/-- `ISQRT_ITER` (Table CFG): one legal value. -/
abbrev isqrtIter : Nat := 16

/-- `ADDR_BITS` (Table CFG): one legal value. -/
abbrev addrBits : Nat := 32

/-- One past the highest byte address of table memory (R40). -/
abbrev memoryBytes : Nat := 2 ^ addrBits

end Sys2Proof
end

