-- ==== Sys2Proof/Machine/Arith.lean ====
section
/-! DEFINITION. The numeric primitives of `00_scope.md` R9 to R11: readings of words, wrapping, sign extension,
shifts and the truncating division. Everything computes on ℤ and is narrowed where a rule says so. -/

namespace Sys2Proof.Machine

/-- `sint32(w)` (R9). -/
def sint32 (w : Word) : Int := w.toInt

/-- `uint32(w)` (R9). -/
def uint32 (w : Word) : Nat := w.toNat

/-- `sint16(h)` (R9). -/
def sint16 (h : Half) : Int := h.toInt

/-- `word(n)` (R9): the 32-bit pattern of `n mod 2^32`. -/
def word (n : Int) : Word := BitVec.ofInt 32 n

/-- `wrap32(n)` (R10). -/
def wrap32 (n : Int) : Int := (n + 2 ^ 31) % 2 ^ 32 - 2 ^ 31

/-- `wrap16(n)` (R10). -/
def wrap16 (n : Int) : Int := (n + 2 ^ 15) % 2 ^ 16 - 2 ^ 15

/-- `sext_N(v)` (R10) of an N-bit field read as unsigned. -/
def sext (n v : Nat) : Int := if 2 ^ (n - 1) ≤ v then (v : Int) - 2 ^ n else v

/-- `zext_N(v)` (R10) of an N-bit field read as unsigned. -/
def zext (v : Nat) : Int := v

/-- `shl(v, n)` (R11): exact. -/
def shl (v : Int) (n : Nat) : Int := v * 2 ^ n

/-- `asr(v, n)` (R11): `Int` division by a positive number floors. -/
def asr (v : Int) (n : Nat) : Int := v / 2 ^ n

/-- `shr0(v, n)` (R11): truncates toward zero. -/
def shr0 (v : Int) (n : Nat) : Int := v.sign * ((v.natAbs / 2 ^ n : Nat) : Int)

/-- `shr(v, n)` under `Cfg.SHR_ROUND` (R11, `90_conflicts.md` C2). -/
def shr (round : ShrRound) (v : Int) (n : Nat) : Int :=
  match round with
  | .towardZero => shr0 v n
  | .floor => asr v n

/-- `tdiv(a, b)` (R11), for `b ≠ 0`: division truncating toward zero. -/
def tdiv (a b : Int) : Int := a.sign * b.sign * ((a.natAbs / b.natAbs : Nat) : Int)

/-- An intermediate result under one of the width parameters: wrapped to 32 bits under INT32, exact under WIDE
(R82, R83, R151). -/
def narrow (width : Intermediate) (n : Int) : Int :=
  match width with
  | .int32 => wrap32 n
  | .wide => n

end Sys2Proof.Machine
end

