-- ==== Sys2Proof/Machine/Literal.lean ====
section
/-! DEFINITION. The build-time and assembly-time literal function `lit_k` of `40_fixed_point_format.md` R80. A real
literal that can be written down is a rational number (log 16). -/

namespace Sys2Proof.Machine

/-- The integer nearest `r · 2^k` under `Cfg.LIT_ROUND`, before the range check (R80): `sign(t)·floor(|t| + 1/2)`
under NEAREST_AWAY and `sign(t)·floor(|t|)` under TOWARD_ZERO, with `|t| = |num|·2^k / den`. -/
def literalCode (round : LitRound) (k : Nat) (r : Rat) : Int :=
  match round with
  | .nearestAway => r.num.sign * (((2 * (r.num.natAbs * 2 ^ k) + r.den) / (2 * r.den) : Nat) : Int)
  | .towardZero => r.num.sign * ((r.num.natAbs * 2 ^ k / r.den : Nat) : Int)

/-- `lit_k(r)` (R80): refused with `LITERAL_RANGE` where the code does not fit in 32 bits. -/
def literal (round : LitRound) (k : Nat) (r : Rat) : Except BuildRefusal Int :=
  if literalCode round k r < -2 ^ 31 ∨ literalCode round k r > 2 ^ 31 - 1 then .error (.literalRange r)
  else .ok (literalCode round k r)

end Sys2Proof.Machine
end

