-- ==== Sys2Proof/Machine/Build.lean ====
section
/-! DEFINITION. Building the block: the default ROM contents of `10_state.md` (Tables SINE and ATAN, R27 to R31), the
default build of Table CFG, and the legality check a build is refused by (`00_scope.md` R6, `10_state.md` R26, R28). -/

namespace Sys2Proof

/-- Entries 0 to 63 of Table SINE. -/
def sineQuarter0 : List Int :=
  [0, 804, 1608, 2410, 3212, 4011, 4808, 5602, 6393, 7179, 7962, 8739, 9512, 10278, 11039, 11793] ++
  [12539, 13279, 14010, 14732, 15446, 16151, 16846, 17530, 18204, 18868, 19519, 20159, 20787, 21403, 22005, 22594] ++
  [23170, 23731, 24279, 24811, 25329, 25832, 26319, 26790, 27245, 27683, 28105, 28510, 28898, 29268, 29621, 29956] ++
  [30273, 30571, 30852, 31113, 31356, 31580, 31785, 31971, 32137, 32285, 32412, 32521, 32609, 32678, 32728, 32757]

/-- Entries 64 to 127 of Table SINE. -/
def sineQuarter1 : List Int :=
  [32767, 32757, 32728, 32678, 32609, 32521, 32412, 32285, 32137, 31971, 31785, 31580, 31356, 31113, 30852, 30571] ++
  [30273, 29956, 29621, 29268, 28898, 28510, 28105, 27683, 27245, 26790, 26319, 25832, 25329, 24811, 24279, 23731] ++
  [23170, 22594, 22005, 21403, 20787, 20159, 19519, 18868, 18204, 17530, 16846, 16151, 15446, 14732, 14010, 13279] ++
  [12539, 11793, 11039, 10278, 9512, 8739, 7962, 7179, 6393, 5602, 4808, 4011, 3212, 2410, 1608, 804]

/-- Entries 128 to 191 of Table SINE. -/
def sineQuarter2 : List Int :=
  [0, -804, -1608, -2410, -3212, -4011, -4808, -5602, -6393, -7179, -7962, -8739, -9512, -10278, -11039, -11793] ++
  [-12539, -13279, -14010, -14732, -15446, -16151, -16846, -17530, -18204, -18868, -19519, -20159, -20787, -21403, -22005, -22594] ++
  [-23170, -23731, -24279, -24811, -25329, -25832, -26319, -26790, -27245, -27683, -28105, -28510, -28898, -29268, -29621, -29956] ++
  [-30273, -30571, -30852, -31113, -31356, -31580, -31785, -31971, -32137, -32285, -32412, -32521, -32609, -32678, -32728, -32757]

/-- Entries 192 to 255 of Table SINE. -/
def sineQuarter3 : List Int :=
  [-32767, -32757, -32728, -32678, -32609, -32521, -32412, -32285, -32137, -31971, -31785, -31580, -31356, -31113, -30852, -30571] ++
  [-30273, -29956, -29621, -29268, -28898, -28510, -28105, -27683, -27245, -26790, -26319, -25832, -25329, -24811, -24279, -23731] ++
  [-23170, -22594, -22005, -21403, -20787, -20159, -19519, -18868, -18204, -17530, -16846, -16151, -15446, -14732, -14010, -13279] ++
  [-12539, -11793, -11039, -10278, -9512, -8739, -7962, -7179, -6393, -5602, -4808, -4011, -3212, -2410, -1608, -804]

/-- Table SINE, the default `Cfg.SINE_TABLE` (R27). -/
def sineTableDefault : List Half :=
  (sineQuarter0 ++ sineQuarter1 ++ sineQuarter2 ++ sineQuarter3).map (BitVec.ofInt 16)

/-- Table ATAN, the default `Cfg.CORDIC_ATAN` (R29). -/
def atanTableDefault : List Nat :=
  [8192, 4836, 2555, 1297, 651, 326, 163, 81, 41, 20, 10, 5, 3, 1]

/-- The real literal behind the default `Cfg.INV_SQRT3` (R31). -/
def invSqrt3Literal : Rat := mkRat 5773502691896258 10000000000000000

/-- The default build of Table CFG for a given `F` and `LIT_ROUND`: `INV_SQRT3` is `lit_F(0.5773502691896258)`,
whose code is in range at every legal `F` (R31). -/
def Cfg.defaultFor (f : Nat) (round : LitRound) : Cfg where
  fracBits := f
  sineTable := sineTableDefault
  cordicAtan := atanTableDefault
  cordicGainQ16 := 39797
  cordicZeroSpecial := .enabled
  invSqrt3 := Machine.literalCode round f invSqrt3Literal
  shrRound := .towardZero
  mulProduct := .int32
  divDividend := .int32
  interpArith := .wide
  litRound := round

/-- The build the test vectors use: every OPEN field of Table CFG at its default, `F` = 15. -/
def Cfg.default : Cfg := Cfg.defaultFor 15 .nearestAway

/-- `ROM.SINE[k]` as a signed integer. -/
def Cfg.sine (c : Cfg) (k : Nat) : Int := (c.sineTable.getD k 0).toInt

/-- `F` is legal: 0..30. -/
def Cfg.legalF (c : Cfg) : Bool := decide (c.fracBits ≤ 30)

/-- `SINE_TABLE` is legal (R26): 256 entries with `SINE[128 − k] = SINE[k]` for k in 0..128 and
`SINE[(k + 128) mod 256] = −SINE[k]` for k in 0..255. -/
def Cfg.legalSine (c : Cfg) : Bool :=
  c.sineTable.length == sineEntries
    && (List.range 129).all (fun k => c.sine (128 - k) == c.sine k)
    && (List.range 256).all (fun k => c.sine ((k + 128) % 256) == -c.sine k)

/-- Each entry is at most the one before it (R28). -/
def nonIncreasing : List Nat → Bool
  | a :: b :: rest => decide (b ≤ a) && nonIncreasing (b :: rest)
  | _ => true

/-- `CORDIC_ATAN` is legal (R28): 14 integers 0..32767, non-increasing in the index. -/
def Cfg.legalAtan (c : Cfg) : Bool :=
  c.cordicAtan.length == cordicIter && c.cordicAtan.all (fun t => decide (t ≤ 32767)) && nonIncreasing c.cordicAtan

/-- `CORDIC_GAIN_Q16` is legal: 1..65535. -/
def Cfg.legalGain (c : Cfg) : Bool := decide (1 ≤ c.cordicGainQ16) && decide (c.cordicGainQ16 ≤ 65535)

/-- `INV_SQRT3` is legal: −2^31 .. 2^31−1. -/
def Cfg.legalInvSqrt3 (c : Cfg) : Bool := decide (-2 ^ 31 ≤ c.invSqrt3) && decide (c.invSqrt3 ≤ 2 ^ 31 - 1)

/-- The legal values of Table CFG (R6); the two-valued fields have no illegal value. -/
def Cfg.legal (c : Cfg) : Bool :=
  c.legalF && c.legalSine && c.legalAtan && c.legalGain && c.legalInvSqrt3

/-- A build: the record itself, or the first field that is not legal (R6: "a model refuses it at build"). -/
def Cfg.build (c : Cfg) : Except BuildRefusal Cfg :=
  if c.legalF = false then .error (.illegalConfig .f)
  else if c.legalSine = false then .error (.illegalConfig .sineTable)
  else if c.legalAtan = false then .error (.illegalConfig .cordicAtan)
  else if c.legalGain = false then .error (.illegalConfig .cordicGainQ16)
  else if c.legalInvSqrt3 = false then .error (.illegalConfig .invSqrt3)
  else .ok c

end Sys2Proof
end

