-- ==== Sys2Proof/Machine/State.lean ====
section
/-! DEFINITION. Everything the spec gives the machine, as plain data: the interface phase, the requester's script and
its record of responses, the fault record and refusal mark, table memory with `Admitted`, and the build record with
the ROMs (`10_state.md` R20 to R36, `00_scope.md` R6 and R7, `70_reset_and_hazards.md` R213 to R215). -/

namespace Sys2Proof.Machine

/-- The commands that read table memory (R40). -/
inductive TableCommand where
  | interp2d
  | interp3d
  deriving DecidableEq, Repr

/-- The sub-reasons of `PRECONDITION` (R194). -/
inductive PreconditionCause where
  | tooFewPoints
  | notAscending
  deriving DecidableEq, Repr

/-- The sub-reasons of `TABLE_ACCESS` (R195). -/
inductive AccessCause where
  | misaligned
  | outOfRange
  | notAdmitted
  deriving DecidableEq, Repr

/-- A failing `MemRead` (R43): its byte address, a mathematical integer that is never wrapped, and its sub-reason. -/
structure AccessFault where
  addr : Nat
  cause : AccessCause
  deriving DecidableEq, Repr

/-- A fault of Table FAULTS with the information it records; `command` is CMD and its operand words (R190). -/
inductive CommandFault where
  /-- `DIVIDE_BY_ZERO`, code 1: raised by FDIV (R191). -/
  | divideByZero (command : List Word)
  /-- `PRECONDITION`, code 2: raised by INTERP2D and INTERP3D (R194). -/
  | precondition (command : List Word) (mnemonic : TableCommand) (cause : PreconditionCause)
  /-- `TABLE_ACCESS`, code 3: raised by INTERP2D and INTERP3D (R195). -/
  | tableAccess (command : List Word) (access : AccessFault)
  deriving DecidableEq, Repr

/-- Why the block is stopped (R192, R193). -/
inductive StopCause where
  | fault (f : CommandFault)
  | refusal (cmd : Word)
  deriving DecidableEq, Repr

/-- Why a step has no next state. -/
inductive Fault where
  /-- Answered by `step` of a block that a fault stopped, where the requester's next move is to issue a command, or it
  has none left: the block takes no further step until a reset (R192; S7 of `93_implementation_defined.md`). Safe: nothing
  after it can be proved of the run. -/
  | stopped (f : CommandFault)
  /-- Answered by `step` where the requester writes a byte of a table that the accepted command reads before that
  command ends: a move R50 says is never made (log 4). Safe: the spec gives no outcome and the model gives none. -/
  | tableWriteRace (addr : Nat)
  /-- Answered by `step` where the requester writes a byte past address 2^32−1: no such byte exists (R40, log 13).
  Safe. -/
  | noSuchByte (addr : Nat)
  /-- Answered by `step` where the requester copies a result word it never received into an operand slot (R69,
  log 15). Safe: no command is issued. -/
  | noSuchResult (response slot : Nat)
  deriving DecidableEq, Repr

/-- Why a command has no meaning. -/
inductive Refusal where
  /-- An instruction the model has not reached. Raised by no arm of `exec`: every row of the opcode table has its
  meaning. Safe. -/
  | notModelled (mnemonic : String)
  /-- `RESERVED_ENCODING`, code 16 of Table FAULTS: answered by `step` of a block that a refused command word stopped,
  where the requester's next move is to issue a command, or it has none left (R193, S7). Safe: a refused word proves
  nothing. -/
  | reservedEncoding (cmd : Word)
  deriving DecidableEq, Repr

/-- The interface phase (R25). -/
inductive Phase where
  | idle
  | busy (c : Command)
  deriving DecidableEq, Repr

/-- The result words of one command: `R[0]`, and `R[1]` where the command returns two (R64). -/
structure Response where
  r0 : Word
  r1 : Option Word
  deriving DecidableEq, Repr

/-- What the requester puts into an operand slot: a word, or a copy of result word `slot` of a response it received
(R21, R69; log 15). -/
inductive Source where
  | word (w : Word)
  | result (response slot : Nat)
  deriving DecidableEq, Repr

/-- The width of a requester's write (R55, Table HOST). -/
inductive WriteWidth where
  | byte
  | half
  | word
  deriving DecidableEq, Repr

/-- One move of the requester, Table HOST (R214). -/
inductive HostMove where
  /-- Issue a command: CMD and its operand words, in slot order. -/
  | issue (cmd : Word) (operands : List Source)
  /-- Write the low bytes of `value` to table memory at `addr`, little-endian (R41, R55). -/
  | write (width : WriteWidth) (addr : Word) (value : Word)
  /-- Assert reset (R210). -/
  | reset
  /-- Wait for the command in flight to end before the next move: for its response, or to see the block stop (R197;
  log 3). -/
  | await
  deriving DecidableEq, Repr

/-- A run of byte addresses, for `Admitted` and for declared extents. -/
structure Region where
  base : Nat
  size : Nat
  deriving DecidableEq, Repr

/-- Table memory: the bytes the requester wrote, addresses strictly rising; an unlisted byte has no value (R40). -/
abbrev Memory := List Host.Cell

/-- The machine. -/
structure State where
  /-- `phase` (R25); a stopped block keeps `busy`. -/
  phase : Phase
  /-- Whether the block is stopped, and by what (R25, R192, R193; log 8). -/
  stop : Option StopCause
  /-- The responses received so far, oldest first: the observation of a run (R215; log 9). -/
  responses : List Response
  /-- Whether the last command issued has had no response: the block still owes it, stopped on it, or a reset dropped
  it (R210, R215; log 9). -/
  unanswered : Bool
  /-- The fault record, oldest first (R192). -/
  faultRecord : List CommandFault
  /-- The refusal mark: the refused command words, oldest first; set when not empty (R193; log 7). -/
  refusals : List Word
  /-- Table memory (R40). -/
  memory : Memory
  /-- The launch predicate `Admitted` (R7): the regions where table memory holds bytes (log 12). -/
  admitted : List Region
  /-- `Cfg` and the ROMs (R6, R24, R26 to R31). -/
  cfg : Cfg
  /-- The moves the requester will make, oldest first (R213, R214; log 2). -/
  script : List HostMove
  deriving DecidableEq, Repr

/-- The machine at launch, which is also a machine after reset (R36, R210, R213): `phase` = `Idle`, nothing recorded.
The launch inputs are the model's: the default build (log 1), no byte of table memory written (log 11), the whole space
admitted (log 12) and no move left to the requester (log 2). -/
def State.reset : State where
  phase := .idle
  stop := none
  responses := []
  unanswered := false
  faultRecord := []
  refusals := []
  memory := []
  admitted := [⟨0, memoryBytes⟩]
  cfg := Cfg.default
  script := []

end Sys2Proof.Machine
end

