-- ==== Sys2Proof/Machine/Ops.lean ====
section
/-! DEFINITION. The named operations over the state: table memory and `MemRead` (`20_memory.md` R40 to R43), the ROM
reads, `respond`, `raise` and `refuse` (`00_scope.md` R12, `60_exceptions.md` R192 and R193), and reset, the return
from a stop (`70_reset_and_hazards.md` R210). -/

namespace Sys2Proof.Machine

/-- What a meaning and a step answer. -/
abbrev Outcome := Host.Outcome State Fault Refusal

/-! ### Table memory -/

/-- The canonical form of table memory: addresses strictly rising and below 2^32. No entry can equal what an unlisted
address reads as, because that is no value. -/
abbrev Memory.Wf (m : Memory) : Prop :=
  m.Pairwise (fun x y => x.1 < y.1) ∧ ∀ x ∈ m, x.1 < memoryBytes

/-- The byte at an address; none where nobody wrote it (R40). -/
def Memory.read (m : Memory) (addr : Nat) : Option Byte :=
  match m with
  | [] => none
  | (k, v) :: rest => if k = addr then some v else Memory.read rest addr

/-- The memory with one byte written. -/
def Memory.write (m : Memory) (addr : Nat) (b : Byte) : Memory :=
  match m with
  | [] => [(addr, b)]
  | (k, v) :: rest =>
    if addr < k then (addr, b) :: (k, v) :: rest
    else if addr = k then (addr, b) :: rest
    else (k, v) :: Memory.write rest addr b

/-- The memory with a list of bytes written from an address upward. -/
def Memory.writeBytes (m : Memory) (addr : Nat) (bs : List Byte) : Memory :=
  match bs with
  | [] => m
  | b :: rest => Memory.writeBytes (Memory.write m addr b) (addr + 1) rest

/-- The address lies in the region. -/
def Region.holds (r : Region) (addr : Nat) : Bool :=
  decide (r.base ≤ addr) && decide (addr < r.base + r.size)

/-- `Admitted(addr)` (R7). -/
def State.admits (s : State) (addr : Nat) : Bool := s.admitted.any (·.holds addr)

/-- The value of the byte at `addr`, where the model has one: admitted and written (R40, R43). -/
def State.byteAt (s : State) (addr : Nat) : Option Byte :=
  if s.admits addr then s.memory.read addr else none

/-- The little-endian word of four bytes, the first from the lowest address (R41). -/
def wordOfBytes (b0 b1 b2 b3 : Byte) : Word := b3 ++ b2 ++ b1 ++ b0

/-- Byte `k` of a word in table memory's order (R41). -/
def byteOfWord (w : Word) (k : Nat) : Byte := w.extractLsb' (8 * k) 8

/-- `MemRead(addr, 4)` (R43), its tests in the rule's order; a negative address cannot arise (log 14). -/
def State.memRead (s : State) (addr : Nat) : Except AccessFault Int :=
  if addr % 4 ≠ 0 then .error ⟨addr, .misaligned⟩
  else if addr + 3 > memoryBytes - 1 then .error ⟨addr, .outOfRange⟩
  else
    match s.byteAt addr, s.byteAt (addr + 1), s.byteAt (addr + 2), s.byteAt (addr + 3) with
    | some b0, some b1, some b2, some b3 => .ok (sint32 (wordOfBytes b0 b1 b2 b3))
    | _, _, _, _ => .error ⟨addr, .notAdmitted⟩

/-! ### The ROMs (R12) -/

/-- `ROM.SINE[k]`, `k` in 0..255. -/
def State.romSine (s : State) (k : Nat) : Half := s.cfg.sineTable.getD k 0

/-- `ROM.ATAN[i]`, `i` in 0..13. -/
def State.romAtan (s : State) (i : Nat) : Int := (s.cfg.cordicAtan.getD i 0 : Nat)

/-- `ROM.GAIN`. -/
def State.romGain (s : State) : Int := (s.cfg.cordicGainQ16 : Nat)

/-- `ROM.INV_SQRT3`. -/
def State.romInvSqrt3 (s : State) : Int := s.cfg.invSqrt3

/-! ### Ending a command -/

/-- `phase` becomes `Idle` and the requester receives the response (R25, R190). -/
def State.answer (s : State) (r : Response) : State :=
  { s with phase := .idle, responses := s.responses ++ [r], unanswered := false }

/-- `respond(r0)` (R12). -/
def State.respond (s : State) (r0 : Int) : Outcome := .next (s.answer ⟨word r0, none⟩)

/-- `respond(r0, r1)` (R12). -/
def State.respond2 (s : State) (r0 r1 : Int) : Outcome := .next (s.answer ⟨word r0, some (word r1)⟩)

/-- The effect of a fault (R192): no response, the fault appended to the record, the block stopped with `phase`
kept. -/
def State.fail (s : State) (f : CommandFault) : State :=
  { s with stop := some (.fault f), faultRecord := s.faultRecord ++ [f] }

/-- `raise Fault(reason)` (R12, R192), shared by every command that faults (log 6). -/
def State.raise (s : State) (f : CommandFault) : Outcome := .next (s.fail f)

/-- `refuse(reason)` (R12, R193): no response, the refusal mark set with the CMD word, the block stopped with `phase`
kept. -/
def State.refuse (s : State) (cmd : Word) : State :=
  { s with stop := some (.refusal cmd), refusals := s.refusals ++ [cmd] }

/-- Reset (R210), the return from a stop: `phase` becomes `Idle`, a command in flight is dropped, a stopped block
accepts commands again, and nothing else changes. -/
def State.assertReset (s : State) : State := { s with phase := .idle, stop := none }

/-- Accepting a command (R25): `phase` becomes `Busy(c)`, and the command is owed a response (R215). -/
def State.accept (s : State) (c : Command) : State := { s with phase := .busy c, unanswered := true }

/-- The code of Table FAULTS (R190). -/
def CommandFault.code (f : CommandFault) : Nat :=
  match f with
  | .divideByZero _ => 1
  | .precondition _ _ _ => 2
  | .tableAccess _ _ => 3

/-- The code of Table FAULTS for whatever stopped the block (R190). -/
def StopCause.code (c : StopCause) : Nat :=
  match c with
  | .fault f => f.code
  | .refusal _ => 16

/-- The command a fault records: CMD and its operand words (R190, R192). -/
def CommandFault.command (f : CommandFault) : List Word :=
  match f with
  | .divideByZero c => c
  | .precondition c _ _ => c
  | .tableAccess c _ => c

end Sys2Proof.Machine
end

