-- ==== Sys2Proof/Machine/Operands.lean ====
section
/-! DEFINITION. Every operand form of `30_encoding.md` R62 and Table SLOTS: the `sint32` and `uint32` readings are
those of Arith; here stand the angle of bits 15:0 and the tables passed by base and count, with their layouts
(`45_interpolation_2d.md` Table LAYOUT2D, `46_interpolation_3d.md` Table LAYOUT3D) and declared extents (`20_memory.md`
R47). -/

namespace Sys2Proof.Machine

/-- The angle operand: bits 15:0, with bits 31:16 ignored (R62, R101). -/
def angleOf (w : Word) : Half := w.extractLsb' 0 16

/-- `h[15:8]`, the sine-table index (R100). -/
def sineIndex (h : Half) : Nat := (h.extractLsb' 8 8).toNat

/-- Read `n` consecutive words from `addr` upward; the first failing read is the outcome (R43, R47). -/
def State.readWords (s : State) (addr n : Nat) : Except AccessFault (List Int) :=
  match n with
  | 0 => .ok []
  | n + 1 =>
    match s.memRead addr with
    | .error e => .error e
    | .ok v =>
      match s.readWords (addr + 4) n with
      | .error e => .error e
      | .ok vs => .ok (v :: vs)

/-- Read the `n` points of a 2-D table: `X[k]` at `base + 8k`, then `Y[k]` at `base + 8k + 4` (R152). -/
def State.readPoints (s : State) (base n : Nat) : Except AccessFault (List (Int × Int)) :=
  match n with
  | 0 => .ok []
  | n + 1 =>
    match s.memRead base with
    | .error e => .error e
    | .ok x =>
      match s.memRead (base + 4) with
      | .error e => .error e
      | .ok y =>
        match s.readPoints (base + 8) n with
        | .error e => .error e
        | .ok ps => .ok ((x, y) :: ps)

/-- A 3-D table: its axes and its grid, `Z` at grid point (i, j) being word `j·Nx + i` (R170). -/
structure Grid where
  xs : List Int
  ys : List Int
  zs : List Int
  deriving DecidableEq, Repr

/-- Read a 3-D table in R171's order: the x axis, the y axis, then the grid, row by row. The grid's rows follow one
another without a gap, so the whole grid is `Nx·Ny` consecutive words (R170). -/
def State.readGrid (s : State) (nx ny xbase ybase zbase : Nat) : Except AccessFault Grid :=
  match s.readWords xbase nx with
  | .error e => .error e
  | .ok xs =>
    match s.readWords ybase ny with
    | .error e => .error e
    | .ok ys =>
      match s.readWords zbase (nx * ny) with
      | .error e => .error e
      | .ok zs => .ok ⟨xs, ys, zs⟩

/-- `V[0] < V[1] < …` (R153, R172). -/
def ascending (v : List Int) : Bool :=
  match v with
  | a :: b :: rest => decide (a < b) && ascending (b :: rest)
  | _ => true

/-- The declared extents of a command: the bytes of the tables it reads (R47). -/
def instrExtents (i : Instr) : List Region :=
  match i with
  | .conv _ _ _ => []
  | .fmul _ _ => []
  | .fdiv _ _ => []
  | .fabs _ => []
  | .sin _ => []
  | .cos _ => []
  | .cart2pol _ _ => []
  | .clarke _ _ _ => []
  | .isqrt _ => []
  | .interp2d _ n base => [⟨uint32 base, 8 * uint32 n⟩]
  | .interp3d _ _ nx ny xbase ybase zbase =>
    [⟨uint32 xbase, 4 * uint32 nx⟩, ⟨uint32 ybase, 4 * uint32 ny⟩, ⟨uint32 zbase, 4 * (uint32 nx * uint32 ny)⟩]

/-- The declared extents of an accepted command; a refused word reads no operand and no table (R196). -/
def commandExtents (c : Command) : List Region :=
  match decode c with
  | .ok i => instrExtents i
  | .error _ => []

end Sys2Proof.Machine
end

