-- ==== Sys2Proof/Machine/Format.lean ====
section
/-! DEFINITION. The fixed-point format layer: CONV, FMUL, FDIV and FABS (`40_fixed_point_format.md` R81 to R84). -/

namespace Sys2Proof.Machine

/-- The conversion of R81: a wrapping left shift up, a `shr` down. -/
def convert (round : ShrRound) (x y : Nat) (v : Int) : Int :=
  if x ≤ y then wrap32 (shl v (y - x)) else shr round v (x - y)

/-- The multiply of R82, which CLARKE shares (R130): product, width, shift by `F`, wrap. -/
def fixedMul (cfg : Cfg) (a b : Int) : Int :=
  wrap32 (shr cfg.shrRound (narrow cfg.mulProduct (a * b)) cfg.fracBits)

/-- The divide of R83, for `b ≠ 0`. -/
def fixedDiv (cfg : Cfg) (a b : Int) : Int :=
  wrap32 (tdiv (narrow cfg.divDividend (shl a cfg.fracBits)) b)

/-- CONV (R81). -/
def execConv (fs fd : BitVec 5) (v : Word) (s : State) : Outcome :=
  s.respond (convert s.cfg.shrRound fs.toNat fd.toNat (sint32 v))

/-- FMUL (R82). -/
def execFmul (a b : Word) (s : State) : Outcome :=
  s.respond (fixedMul s.cfg (sint32 a) (sint32 b))

/-- FDIV (R83): a zero divisor is checked before any other work and faults (R191). -/
def execFdiv (a b : Word) (s : State) : Outcome :=
  if sint32 b = 0 then s.raise (.divideByZero (encode (.fdiv a b)))
  else s.respond (fixedDiv s.cfg (sint32 a) (sint32 b))

/-- FABS (R84). -/
def execFabs (a : Word) (s : State) : Outcome :=
  s.respond (wrap32 ((sint32 a).natAbs : Int))

end Sys2Proof.Machine
end

