-- ==== Sys2Proof/Machine/Clarke.lean ====
section
/-! DEFINITION. The Clarke transform (`43_clarke_transform.md` R130). -/

namespace Sys2Proof.Machine

/-- CLARKE (R130): `c` is accepted and not read; the multiply is FMUL's. -/
def execClarke (a b _c : Word) (s : State) : Outcome :=
  s.respond2 (sint32 a) (fixedMul s.cfg (wrap32 (sint32 a + 2 * sint32 b)) s.romInvSqrt3)

end Sys2Proof.Machine
end

