-- ==== Sys2Proof/Machine/Cordic.lean ====
section
/-! DEFINITION. CART2POL, the vectoring-mode CORDIC rotator (`42_cordic_rotator.md` R110 to R115; the bracketed
equations of `90_conflicts.md` C1). -/

namespace Sys2Proof.Machine

/-- The working values of the rotator (R111): the pair and the angle accumulator. -/
structure Rotor where
  re : Int
  im : Int
  acc : Int
  deriving DecidableEq, Repr

/-- The pre-rotation of R112: the pair, and the angle offset. -/
def preRotate (re im : Int) : (Int × Int) × Int :=
  if re < 0 ∧ im < 0 then ((wrap32 (-im), re), -16384)
  else if re < 0 then ((im, wrap32 (-re)), 16384)
  else ((re, im), 0)

/-- Micro-rotation `i` by the angle `t` (R113): both updates use the values from before it. -/
def microRotate (i : Nat) (t : Int) (v : Rotor) : Rotor :=
  if v.im < 0 then ⟨wrap32 (v.re - asr v.im i), wrap32 (v.im + asr v.re i), v.acc - t⟩
  else ⟨wrap32 (v.re + asr v.im i), wrap32 (v.im - asr v.re i), v.acc + t⟩

/-- The 14 micro-rotations, `i` = 0..13 (R113, R120). -/
def State.rotate (s : State) (v : Rotor) : Rotor :=
  (List.range cordicIter).foldl (fun v i => microRotate i (s.romAtan i) v) v

/-- CART2POL (R110): zero input, pre-rotation, micro-rotations, gain correction and final angle. -/
def execCart2pol (re im : Word) (s : State) : Outcome :=
  if s.cfg.cordicZeroSpecial = .enabled ∧ sint32 re = 0 ∧ sint32 im = 0 then s.respond2 0 0
  else
    let p := preRotate (sint32 re) (sint32 im)
    let v := s.rotate ⟨p.1.1, p.1.2, 0⟩
    s.respond2 (wrap32 (shr s.cfg.shrRound (v.re * s.romGain) 16)) (wrap16 (v.acc + p.2))

end Sys2Proof.Machine
end

