-- ==== Sys2Proof/Machine/Interp.lean ====
section
/-! DEFINITION. The table interpolators: the segment search and rounded linear formula of `45_interpolation_2d.md`
R150 and R151, INTERP2D (R152, R153) and INTERP3D (`46_interpolation_3d.md` R170 to R172). -/

namespace Sys2Proof.Machine

/-- The scan of R150 over `k` indices from `i` on: the first whose value is at least `q`, else the index after the
last. -/
def segFrom (v : List Int) (q : Int) (i k : Nat) : Nat :=
  match k with
  | 0 => i
  | k + 1 => if v.getD i 0 ≥ q then i else segFrom v q (i + 1) k

/-- `seg(V, N, q)` (R150): the interior indices 1 .. N−2 in ascending order, else N−1. -/
def seg (v : List Int) (q : Int) : Nat := segFrom v q 1 (v.length - 2)

/-- Move `num` away from zero by half the denominator (R151, `92_eei_decisions.md` D27). -/
def addHalf (num den : Int) : Int :=
  if num ≥ 0 then num + ((den.natAbs / 2 : Nat) : Int) else num - ((den.natAbs / 2 : Nat) : Int)

/-- `lerp(q, x0, y0, x1, y1)` (R151): every intermediate is narrowed under INT32 and exact under WIDE. -/
def lerp (width : Intermediate) (q x0 y0 x1 y1 : Int) : Int :=
  let num := narrow width (narrow width (q - x0) * narrow width (y1 - y0))
  let den := narrow width (x1 - x0)
  let quo := narrow width (tdiv (narrow width (addHalf num den)) den)
  wrap32 (y0 + quo)

/-- INTERP2D's result on a table that was read and meets R153 (R152 step 3). -/
def interpolate2d (width : Intermediate) (points : List (Int × Int)) (q : Int) : Int :=
  let xs := points.map (·.1)
  let ys := points.map (·.2)
  let i := seg xs q
  lerp width q (xs.getD (i - 1) 0) (ys.getD (i - 1) 0) (xs.getD i 0) (ys.getD i 0)

/-- INTERP3D's result on a table that was read and meets R172 (R171 step 3): x along both rows, then y. -/
def interpolate3d (width : Intermediate) (g : Grid) (qx qy : Int) : Int :=
  let i := seg g.xs qx
  let j := seg g.ys qy
  let z := fun (i j : Nat) => g.zs.getD (j * g.xs.length + i) 0
  let x0 := g.xs.getD (i - 1) 0
  let x1 := g.xs.getD i 0
  let za := lerp width qx x0 (z (i - 1) (j - 1)) x1 (z i (j - 1))
  let zb := lerp width qx x0 (z (i - 1) j) x1 (z i j)
  lerp width qy (g.ys.getD (j - 1) 0) za (g.ys.getD j 0) zb

/-- INTERP2D (R152): read the whole extent, check the preconditions (R153), interpolate. -/
def execInterp2d (x n base : Word) (s : State) : Outcome :=
  match s.readPoints (uint32 base) (uint32 n) with
  | .error e => s.raise (.tableAccess (encode (.interp2d x n base)) e)
  | .ok points =>
    if uint32 n < 2 then s.raise (.precondition (encode (.interp2d x n base)) .interp2d .tooFewPoints)
    else if ascending (points.map (·.1)) = false then
      s.raise (.precondition (encode (.interp2d x n base)) .interp2d .notAscending)
    else s.respond (interpolate2d s.cfg.interpArith points (sint32 x))

/-- INTERP3D (R171): read the three extents in order, check the preconditions (R172), interpolate. -/
def execInterp3d (x y nx ny xbase ybase zbase : Word) (s : State) : Outcome :=
  match s.readGrid (uint32 nx) (uint32 ny) (uint32 xbase) (uint32 ybase) (uint32 zbase) with
  | .error e => s.raise (.tableAccess (encode (.interp3d x y nx ny xbase ybase zbase)) e)
  | .ok g =>
    if uint32 nx < 2 ∨ uint32 ny < 2 then
      s.raise (.precondition (encode (.interp3d x y nx ny xbase ybase zbase)) .interp3d .tooFewPoints)
    else if ascending g.xs = false ∨ ascending g.ys = false then
      s.raise (.precondition (encode (.interp3d x y nx ny xbase ybase zbase)) .interp3d .notAscending)
    else s.respond (interpolate3d s.cfg.interpArith g (sint32 x) (sint32 y))

end Sys2Proof.Machine
end

