-- ==== Sys2Proof/Machine/Isqrt.lean ====
section
/-! DEFINITION. The integer square root (`44_integer_sqrt.md` R140), computed by the digit-by-digit algorithm of R141,
which the rule says a model may use (log 18). -/

namespace Sys2Proof.Machine

/-- The running remainder and root of R141. -/
structure RootState where
  rem : Nat
  root : Nat
  deriving DecidableEq, Repr

/-- One iteration of R141: bring down the radicand's bits 2i+1:2i, compare the trial value. -/
def rootDigit (n i : Nat) (v : RootState) : RootState :=
  let rem := 4 * v.rem + n / 4 ^ i % 4
  let trial := 4 * v.root + 1
  if trial ≤ rem then ⟨rem - trial, 2 * v.root + 1⟩ else ⟨rem, 2 * v.root⟩

/-- The iterations `i` = k−1 downto 0. -/
def rootDigits (n k : Nat) (v : RootState) : RootState :=
  match k with
  | 0 => v
  | k + 1 => rootDigits n k (rootDigit n k v)

/-- The root after the 16 iterations (R141, R142). -/
def isqrt (n : Nat) : Nat := (rootDigits n isqrtIter ⟨0, 0⟩).root

/-- ISQRT (R140): the radicand is unsigned and the root is zero-extended. -/
def execIsqrt (n : Word) (s : State) : Outcome := s.respond (zext (isqrt (uint32 n)))

end Sys2Proof.Machine
end

