-- ==== Sys2Proof/Machine/Trig.lean ====
section
/-! DEFINITION. The table lookups SIN and COS (`41_sin_cos_lookup.md` R100 to R102). -/

namespace Sys2Proof.Machine

/-- The sample at a 16-bit angle, read as a 16-bit field and sign-extended (R100, R101). -/
def State.sineAt (s : State) (h : Half) : Int := sext 16 (s.romSine (sineIndex h)).toNat

/-- SIN (R101). -/
def execSin (angle : Word) (s : State) : Outcome :=
  s.respond (s.sineAt (angleOf angle))

/-- COS (R102): a quarter turn is added, wrapping in 16 bits. -/
def execCos (angle : Word) (s : State) : Outcome :=
  s.respond (s.sineAt (angleOf angle + 16384#16))

end Sys2Proof.Machine
end

