-- ==== Sys2Proof/Machine/Dispatch.lean ====
section
/-! DEFINITION. One arm per command of Table OPC. -/

namespace Sys2Proof.Machine

def exec (i : Instr) (s : State) : Host.Outcome State Fault Refusal :=
  match i with
  | .conv fs fd v => Sys2Proof.Machine.execConv fs fd v s
  | .fmul a b => Sys2Proof.Machine.execFmul a b s
  | .fdiv a b => Sys2Proof.Machine.execFdiv a b s
  | .fabs a => Sys2Proof.Machine.execFabs a s
  | .sin angle => Sys2Proof.Machine.execSin angle s
  | .cos angle => Sys2Proof.Machine.execCos angle s
  | .cart2pol re im => Sys2Proof.Machine.execCart2pol re im s
  | .clarke a b c => Sys2Proof.Machine.execClarke a b c s
  | .isqrt n => Sys2Proof.Machine.execIsqrt n s
  | .interp2d x n base => Sys2Proof.Machine.execInterp2d x n base s
  | .interp3d x y nx ny xbase ybase zbase => Sys2Proof.Machine.execInterp3d x y nx ny xbase ybase zbase s

end Sys2Proof.Machine
end

