-- ==== Sys2Proof/Machine/Requester.lean ====
section
/-! DEFINITION. The requester's moves, Table HOST of `70_reset_and_hazards.md` R214, and the launch of a run
(R213, `00_scope.md` R6 and R7). -/

namespace Sys2Proof.Machine

/-- The bytes a write stores, from its address upward: the low bytes of the value, little-endian (R41, R55). -/
def writeBytesOf (width : WriteWidth) (value : Word) : List Byte :=
  match width with
  | .byte => [byteOfWord value 0]
  | .half => [byteOfWord value 0, byteOfWord value 1]
  | .word => [byteOfWord value 0, byteOfWord value 1, byteOfWord value 2, byteOfWord value 3]

/-- The requester writes table memory (R214); a byte past 2^32−1 does not exist (R40, log 13). -/
def State.hostWrite (s : State) (width : WriteWidth) (addr value : Word) : Outcome :=
  if uint32 addr + (writeBytesOf width value).length > memoryBytes then .fault (.noSuchByte memoryBytes)
  else .next { s with memory := s.memory.writeBytes (uint32 addr) (writeBytesOf width value) }

/-- The write touches a byte of one of the regions. -/
def writeTouches (regions : List Region) (width : WriteWidth) (addr : Word) : Bool :=
  (List.range (writeBytesOf width 0).length).any fun k => regions.any fun r => r.holds (uint32 addr + k)

/-- Result word `slot` of the requester's response number `response` (R69: `$label.k`). -/
def State.result (s : State) (response slot : Nat) : Option Word :=
  match s.responses[response]? with
  | none => none
  | some r =>
    match slot with
    | 0 => some r.r0
    | 1 => r.r1
    | _ => none

/-- The operand words the requester puts into the slots; the first copy of a word it never received stops it. -/
def State.gather (s : State) (operands : List Source) : Except Fault (List Word) :=
  match operands with
  | [] => .ok []
  | .word w :: rest =>
    match s.gather rest with
    | .error f => .error f
    | .ok ws => .ok (w :: ws)
  | .result response slot :: rest =>
    match s.result response slot with
    | none => .error (.noSuchResult response slot)
    | some w =>
      match s.gather rest with
      | .error f => .error f
      | .ok ws => .ok (w :: ws)

/-- The requester issues a command and the block, in `Idle`, accepts it (R25, R214). -/
def State.hostIssue (s : State) (cmd : Word) (operands : List Source) : Outcome :=
  match s.gather operands with
  | .error f => .fault f
  | .ok ws => .next (s.accept (Command.ofWords (cmd :: ws)))

/-- A step of a waiting block: the requester's next move; with none left the block waits in `Idle` (R211). -/
def State.idleStep (s : State) : Outcome :=
  match s.script with
  | [] => .next s
  | .issue cmd operands :: rest => State.hostIssue { s with script := rest } cmd operands
  | .write width addr value :: rest => State.hostWrite { s with script := rest } width addr value
  | .reset :: rest => .next (State.assertReset { s with script := rest })
  | .await :: rest => .next { s with script := rest }

/-- What a step of a stopped block is where the requester restarts it by no move: there is none (R192, R193). -/
def StopCause.stuck (cause : StopCause) : Outcome :=
  match cause with
  | .fault f => .fault (.stopped f)
  | .refusal cmd => .refused (.reservedEncoding cmd)

/-- A step of a stopped block. The requester's wait for a response ends, because it sees the block stop (R197; log 3), and
it may write memory and assert reset (R214). A command before a reset is stuck (S7 of `93_implementation_defined.md`), and
so is a block whose requester has no move left (R192, R193). -/
def State.stoppedStep (s : State) (cause : StopCause) : Outcome :=
  match s.script with
  | [] => cause.stuck
  | .issue _ _ :: _ => cause.stuck
  | .write width addr value :: rest => State.hostWrite { s with script := rest } width addr value
  | .reset :: rest => .next (State.assertReset { s with script := rest })
  | .await :: rest => .next { s with script := rest }

/-- The launch of a run (R213): a legal `Cfg`, the bytes of table memory the requester has written, `Admitted` and the
requester's moves; an illegal `Cfg` is refused at build (R6). An address past 2^32−1 names no byte. -/
def State.launch (cfg : Cfg) (bytes : List Host.Cell) (admitted : List Region) (script : List HostMove) :
    Except BuildRefusal State :=
  match cfg.build with
  | .error e => .error e
  | .ok c =>
    .ok { State.reset with
      cfg := c
      memory := (bytes.filter fun x => decide (x.1 < memoryBytes)).foldl (fun m x => Memory.write m x.1 x.2) []
      admitted := admitted
      script := script }

end Sys2Proof.Machine
end

