-- ==== Sys2Proof/Machine/Serve.lean ====
section
/-! DEFINITION. The block's service of an accepted command (`10_state.md` R25, `60_exceptions.md` R190 to R193), the
fetch that reads it from the interface, and the step of an accepted command, where the requester may still move
(`70_reset_and_hazards.md` R214). -/

namespace Sys2Proof.Machine

/-- Serve an accepted command in one atomic step (R25): decode it, then run it, or refuse it (R193). -/
def State.serve (s : State) (c : Command) : Outcome :=
  match decode c with
  | .ok i => exec i s
  | .error _ => .next (s.refuse c.cmd)

/-- A step between accepting a command and ending it: the requester may write memory outside the tables the command
reads (R50, R214) or assert reset (R210); otherwise it waits and the block serves the command. -/
def State.busyStep (s : State) (c : Command) : Outcome :=
  match s.script with
  | [] => s.serve c
  | .issue _ _ :: _ => s.serve c
  | .write width addr value :: rest =>
    if writeTouches (commandExtents c) width addr then .fault (.tableWriteRace (uint32 addr))
    else State.hostWrite { s with script := rest } width addr value
  | .reset :: rest => .next (State.assertReset { s with script := rest })
  | .await :: _ => s.serve c

/-- The state in which the block has accepted the command of these bits and the next step serves it: `phase` is
`Busy`, the block is not stopped, and the requester waits (log 2). -/
def State.placeCommand (s : State) (nbits w : Nat) : State :=
  { s.accept (commandOfBits nbits w) with stop := none, script := .await :: s.script }

end Sys2Proof.Machine
end

