-- ==== Sys2Proof/Machine/Step.lean ====
section
/-! DEFINITION. One step of the machine: who moves is plain data, `phase`, `stop` and the head of the requester's
script (`10_state.md` R20 and R25; log 3). -/

namespace Sys2Proof.Machine

/-- One step: a stopped block waits for reset, an idle block waits for the requester, a busy block serves its
command. -/
def step (s : State) : Host.Outcome State Fault Refusal :=
  match s.stop with
  | some cause => s.stoppedStep cause
  | none =>
    match s.phase with
    | .idle => s.idleStep
    | .busy c => s.busyStep c

/-- `s` with the command of these bits accepted, so that the next step serves it (log 2). -/
def State.withFetchWord (s : State) (nbits w : Nat) : State := s.placeCommand nbits w

end Sys2Proof.Machine
end

