-- ==== Sys2Proof/Machine/Assembler.lean ====
section
/-! DEFINITION. The assembly language of `30_encoding.md` R69 to R71: command lines, the pseudo-instructions TOF and
FROMF, and the requester's moves a program of lines stands for. -/

namespace Sys2Proof.Machine

/-- The mnemonics of Table OPC, and the pseudo-instructions of R71. -/
inductive Mnemonic where
  | conv | fmul | fdiv | fabs | sin | cos | cart2pol | clarke | isqrt | interp2d | interp3d
  | tof | fromf
  deriving DecidableEq, Repr

/-- An operand of a command line (R69). -/
inductive AsmOperand where
  /-- A decimal integer, possibly negative. -/
  | decimal (n : Int)
  /-- A hexadecimal `0x` literal. -/
  | hex (n : Nat)
  /-- `$label` (slot 0) or `$label.k`. -/
  | result (label : List Char) (slot : Nat)
  /-- `.fx(r)`. -/
  | fx (r : Rat)
  deriving DecidableEq, Repr

/-- A command line (R69), its comment left out. -/
structure AsmLine where
  label : Option (List Char)
  mnemonic : Mnemonic
  operands : List AsmOperand
  deriving DecidableEq, Repr

/-- Why a line is no command line. -/
inductive AsmError where
  /-- The text is not of the form of R69. -/
  | badText
  /-- The operands are not as many, or a format number is not a decimal integer 0..30 (R69). -/
  | badOperands
  /-- An integer operand outside −2^31 .. 2^32−1 (R69). -/
  | operandRange (n : Int)
  /-- `$label.k` names no earlier command, or no result word of it (R69). -/
  | unknownResult (label : List Char) (slot : Nat)
  /-- A literal is refused with `LITERAL_RANGE` (R80). -/
  | refused (r : BuildRefusal)
  deriving DecidableEq, Repr

/-- How many result words the command returns (Table SLOTS). -/
def Mnemonic.resultCount (m : Mnemonic) : Nat :=
  match m with
  | .cart2pol => 2
  | .clarke => 2
  | .conv => 1
  | .fmul => 1
  | .fdiv => 1
  | .fabs => 1
  | .sin => 1
  | .cos => 1
  | .isqrt => 1
  | .interp2d => 1
  | .interp3d => 1
  | .tof => 1
  | .fromf => 1

/-- The OPC value (Table OPC); the pseudo-instructions are CONV (R71). -/
def Mnemonic.opc (m : Mnemonic) : BitVec 8 :=
  match m with
  | .conv => 0x01
  | .fmul => 0x02
  | .fdiv => 0x03
  | .fabs => 0x04
  | .sin => 0x10
  | .cos => 0x11
  | .cart2pol => 0x20
  | .clarke => 0x30
  | .isqrt => 0x40
  | .interp2d => 0x50
  | .interp3d => 0x60
  | .tof => 0x01
  | .fromf => 0x01

/-- An earlier line's label, with the number of its response and of its result words. -/
structure AsmLabel where
  label : List Char
  response : Nat
  resultCount : Nat
  deriving DecidableEq, Repr

/-- An integer operand's word, where it is in range (R69). An angle of SIN or COS has the same range as any other integer
operand: R69 says that it may be written in −32768 .. 65535 and does not say that another is refused (log 16, DESIGN
CHOICE). -/
def assembleInt (n : Int) : Except AsmError Source :=
  if n < -2 ^ 31 ∨ n > 2 ^ 32 - 1 then .error (.operandRange n) else .ok (.word (BitVec.ofInt 32 n))

/-- What the requester puts into the slot of an operand (R69). -/
def assembleOperand (cfg : Cfg) (labels : List AsmLabel) (o : AsmOperand) : Except AsmError Source :=
  match o with
  | .decimal n => assembleInt n
  | .hex n => assembleInt n
  | .result label slot =>
    match labels.find? (fun l => l.label == label) with
    | none => .error (.unknownResult label slot)
    | some l => if slot < l.resultCount then .ok (.result l.response slot) else .error (.unknownResult label slot)
  | .fx r =>
    match literal cfg.litRound cfg.fracBits r with
    | .error e => .error (.refused e)
    | .ok n => .ok (.word (BitVec.ofInt 32 n))

/-- Each operand in slot order. -/
def assembleOperands (cfg : Cfg) (labels : List AsmLabel) (os : List AsmOperand) : Except AsmError (List Source) :=
  match os with
  | [] => .ok []
  | o :: rest =>
    match assembleOperand cfg labels o with
    | .error e => .error e
    | .ok x =>
      match assembleOperands cfg labels rest with
      | .error e => .error e
      | .ok xs => .ok (x :: xs)

/-- A format number of CONV, TOF or FROMF: a decimal integer 0..30 (R69, R71). -/
def assembleFormat (o : AsmOperand) : Option (BitVec 5) :=
  match o with
  | .decimal n => if 0 ≤ n ∧ n ≤ 30 then some (BitVec.ofNat 5 n.toNat) else none
  | .hex _ => none
  | .result _ _ => none
  | .fx _ => none

/-- The format fields FS and FD of a line, and the operands that fill its slots (R69, R71). -/
def splitFormats (cfg : Cfg) (line : AsmLine) : Option (BitVec 5 × BitVec 5 × List AsmOperand) :=
  match line.mnemonic, line.operands with
  | .conv, fs :: fd :: v =>
    match assembleFormat fs, assembleFormat fd with
    | some fs, some fd => some (fs, fd, v)
    | _, _ => none
  | .tof, k :: v => (assembleFormat k).map fun k => (k, BitVec.ofNat 5 cfg.fracBits, v)
  | .fromf, k :: v => (assembleFormat k).map fun k => (BitVec.ofNat 5 cfg.fracBits, k, v)
  | .conv, _ => none
  | .tof, _ => none
  | .fromf, _ => none
  | _, os => some (0, 0, os)

/-- The move that issues a command line's command (R69 to R71). -/
def assembleLine (cfg : Cfg) (labels : List AsmLabel) (line : AsmLine) : Except AsmError HostMove :=
  match splitFormats cfg line with
  | none => .error .badOperands
  | some (fs, fd, os) =>
    if operandCount line.mnemonic.opc = some os.length then
      match assembleOperands cfg labels os with
      | .error e => .error e
      | .ok sources => .ok (.issue (commandWord fd fs line.mnemonic.opc) sources)
    else .error .badOperands

/-- The moves of a program's lines: line `k` of the program is answered by response `k` (log 15). -/
def assembleFrom (cfg : Cfg) (labels : List AsmLabel) (k : Nat) (lines : List AsmLine) :
    Except AsmError (List HostMove) :=
  match lines with
  | [] => .ok []
  | line :: rest =>
    match assembleLine cfg labels line with
    | .error e => .error e
    | .ok move =>
      let labels' := match line.label with
        | none => labels
        | some l => ⟨l, k, line.mnemonic.resultCount⟩ :: labels
      match assembleFrom cfg labels' (k + 1) rest with
      | .error e => .error e
      | .ok moves => .ok (move :: moves)

/-- A program of command lines (R69): the command sequence the requester will issue (R213). -/
def assemble (cfg : Cfg) (lines : List AsmLine) : Except AsmError (List HostMove) := assembleFrom cfg [] 0 lines

end Sys2Proof.Machine
end

