-- ==== Sys2Proof/Machine/AsmText.lean ====
section
/-! DEFINITION. The text of command lines and of program listings (`30_encoding.md` R69, R70). What the rules leave
open of the text (blanks, the letters of a label, case) is log 16. -/

namespace Sys2Proof.Machine

/-! ### Reading a command line (R69) -/

/-- A blank. -/
def isBlank (c : Char) : Bool := c == ' ' || c == '\t'

/-- The text without blanks at either end. -/
def trim (t : List Char) : List Char := ((t.dropWhile isBlank).reverse.dropWhile isBlank).reverse

/-- The value of a digit in a base of at most 16. -/
def digitValue (base : Nat) (c : Char) : Option Nat :=
  let n := c.toNat
  let v := if 48 ≤ n ∧ n ≤ 57 then n - 48
    else if 65 ≤ n ∧ n ≤ 70 then n - 55
    else if 97 ≤ n ∧ n ≤ 102 then n - 87
    else 16
  if v < base then some v else none

/-- The value of a run of digits, after a value already read. -/
def digitsFrom (base acc : Nat) (t : List Char) : Option Nat :=
  match t with
  | [] => some acc
  | c :: rest =>
    match digitValue base c with
    | none => none
    | some v => digitsFrom base (base * acc + v) rest

/-- A number of at least one digit. -/
def parseDigits (base : Nat) (t : List Char) : Option Nat := if t = [] then none else digitsFrom base 0 t

/-- A decimal integer, possibly negative. -/
def parseInt (t : List Char) : Option Int :=
  match t with
  | '-' :: rest => (parseDigits 10 rest).map fun n => -(n : Int)
  | _ => (parseDigits 10 t).map fun n => (n : Int)

/-- A decimal real without its sign: digits, or digits, a point and digits. -/
def parseDecimal (t : List Char) : Option Rat :=
  match t.splitOn '.' with
  | [whole] => (parseDigits 10 whole).map fun n => mkRat n 1
  | [whole, frac] =>
    match parseDigits 10 whole, parseDigits 10 frac with
    | some n, some f => some (mkRat ((n * 10 ^ frac.length + f : Nat) : Int) (10 ^ frac.length))
    | _, _ => none
  | _ => none

/-- A decimal real, possibly negative: the argument of `.fx`. -/
def parseReal (t : List Char) : Option Rat :=
  match t with
  | '-' :: rest => (parseDecimal rest).map fun r => mkRat (-r.num) r.den
  | _ => parseDecimal t

/-- A character of a label or mnemonic. -/
def isNameChar (c : Char) : Bool :=
  let n := c.toNat
  (48 ≤ n && n ≤ 57) || (65 ≤ n && n ≤ 90) || (97 ≤ n && n ≤ 122) || c == '_'

/-- A label: at least one letter, digit or underscore. -/
def parseName (t : List Char) : Option (List Char) := if t ≠ [] ∧ t.all isNameChar then some t else none

/-- `$label` or `$label.k`, after the dollar sign. -/
def parseResult (t : List Char) : Option AsmOperand :=
  match t.splitOn '.' with
  | [label] => (parseName label).map fun l => .result l 0
  | [label, k] =>
    match parseName label, parseDigits 10 k with
    | some l, some k => some (.result l k)
    | _, _ => none
  | _ => none

/-- One operand (R69). -/
def parseOperand (t : List Char) : Option AsmOperand :=
  match t with
  | '$' :: rest => parseResult rest
  | '0' :: 'x' :: rest => (parseDigits 16 rest).map .hex
  | '.' :: 'f' :: 'x' :: '(' :: rest =>
    match rest.reverse with
    | ')' :: body => (parseReal (trim body.reverse)).map .fx
    | _ => none
  | _ => (parseInt t).map .decimal

/-- The operands between commas. -/
def parseOperands (ts : List (List Char)) : Option (List AsmOperand) :=
  match ts with
  | [] => some []
  | t :: rest =>
    match parseOperand (trim t), parseOperands rest with
    | some o, some os => some (o :: os)
    | _, _ => none

/-- The spelling of each mnemonic. -/
def mnemonicNames : List (List Char × Mnemonic) :=
  [("CONV".toList, .conv), ("FMUL".toList, .fmul), ("FDIV".toList, .fdiv), ("FABS".toList, .fabs),
   ("SIN".toList, .sin), ("COS".toList, .cos), ("CART2POL".toList, .cart2pol), ("CLARKE".toList, .clarke)] ++
  [("ISQRT".toList, .isqrt), ("INTERP2D".toList, .interp2d), ("INTERP3D".toList, .interp3d),
   ("TOF".toList, .tof), ("FROMF".toList, .fromf)]

/-- The mnemonic of a spelling. -/
def parseMnemonic (t : List Char) : Option Mnemonic := (mnemonicNames.find? fun p => p.1 == t).map (·.2)

/-- `MNEMONIC operand, …`, after the label. -/
def parseBody (label : Option (List Char)) (t : List Char) : Option AsmLine :=
  let t := trim t
  match parseMnemonic (t.takeWhile isNameChar), parseOperands ((t.dropWhile isNameChar).splitOn ',') with
  | some m, some os => some ⟨label, m, os⟩
  | _, _ => none

/-- A command line (R69): `[label:] MNEMONIC operand, … [; comment]`. -/
def parseLine (text : List Char) : Except AsmError AsmLine :=
  let t := text.takeWhile (· != ';')
  let parsed := match t.splitOn ':' with
    | [body] => parseBody none body
    | [label, body] =>
      match parseName (trim label) with
      | some l => parseBody (some l) body
      | none => none
    | _ => none
  match parsed with
  | some line => .ok line
  | none => .error .badText

/-- The moves of one line of text, with no earlier label. -/
def assembleText (cfg : Cfg) (text : List Char) : Except AsmError HostMove :=
  match parseLine text with
  | .error e => .error e
  | .ok line => assembleLine cfg [] line

/-! ### The listing (R70) -/

/-- A hexadecimal digit. -/
def hexDigit (n : Nat) : Char := if n < 10 then Char.ofNat (48 + n) else Char.ofNat (55 + n)

/-- A word as `0x` and eight hexadecimal digits. -/
def hexWord (w : Word) : List Char :=
  '0' :: 'x' :: [7, 6, 5, 4, 3, 2, 1, 0].map fun k => hexDigit (w.toNat / 16 ^ k % 16)

/-- The decimal digits of a number below 10^k. -/
def decimalDigits (k n : Nat) : List Char :=
  match k with
  | 0 => []
  | k + 1 => decimalDigits k (n / 10) ++ [hexDigit (n % 10)]

/-- A number below 10^10 in decimal, without leading zeros. -/
def decimalNat (n : Nat) : List Char :=
  match (decimalDigits 10 n).dropWhile (· == '0') with
  | [] => ['0']
  | ds => ds

/-- A word's `sint32` value in decimal. -/
def decimalWord (w : Word) : List Char :=
  if w.toInt < 0 then '-' :: decimalNat w.toInt.natAbs else decimalNat w.toInt.natAbs

/-- Texts joined by a comma and a blank. -/
def commaJoin (ts : List (List Char)) : List Char :=
  match ts with
  | [] => []
  | [t] => t
  | t :: rest => t ++ ", ".toList ++ commaJoin rest

/-- The line of a program listing (R70): the label, the command line, CMD, the operand words, the result words. -/
def listingLine (label body : List Char) (i : Instr) (r : Response) : List Char :=
  label ++ ": ".toList ++ body ++ "   => CMD=".toList ++ hexWord ((encode i).headD 0) ++ "  A=[".toList ++
    commaJoin ((encode i).tail.map hexWord) ++ "]  -> R=[".toList ++
    commaJoin ((r.r0 :: r.r1.toList).map decimalWord) ++ "]".toList

end Sys2Proof.Machine
end

