-- ==== Sys2Proof/Safety.lean ====
section
/-! DEFINITION. What claims about a run are stated in: the end of a run and its observation (`70_reset_and_hazards.md`
R215), the invariant of the machine, and the agreement of two states on what a command may read (`10_state.md` R35). -/

namespace Sys2Proof.Machine

/-- The move issues a command. -/
def HostMove.isIssue (m : HostMove) : Bool :=
  match m with
  | .issue _ _ => true
  | .write _ _ _ => false
  | .reset => false
  | .await => false

/-- The requester has issued every command of its sequence (R215): no move left to it issues one. -/
abbrev State.AllIssued (s : State) : Prop := ∀ m ∈ s.script, m.isIssue = false

/-- The end of a run (R215): every command issued, the last one answered, `phase` = `Idle`, no fault recorded and the
refusal mark clear. -/
abbrev State.Final (s : State) : Prop :=
  s.AllIssued ∧ s.unanswered = false ∧ s.phase = .idle ∧ s.faultRecord = [] ∧ s.refusals = []

/-- The observation of a run (R215). -/
def State.observation (s : State) : List Response := s.responses

/-- What the block keeps of the command that stopped it: `phase` is `Busy` with that command (R25), and the fault is
the last of the record and belongs to it (R192), or its word is the last of the refusal mark (R193). -/
def State.StopMatches (s : State) (cause : StopCause) : Prop :=
  ∃ c, s.phase = .busy c ∧
    match cause with
    | .fault f => s.faultRecord.getLast? = some f ∧ ∃ i, decode c = .ok i ∧ f.command = encode i
    | .refusal cmd => s.refusals.getLast? = some cmd ∧ c.cmd = cmd

/-- Who may raise which fault, and what it records (Table FAULTS, R191, R194, R195). -/
def CommandFault.Sound (f : CommandFault) : Prop :=
  match f with
  | .divideByZero cmd => ∃ a, cmd = encode (.fdiv a 0)
  | .precondition cmd .interp2d _ => ∃ x n base, cmd = encode (.interp2d x n base)
  | .precondition cmd .interp3d _ =>
    ∃ x y nx ny xbase ybase zbase, cmd = encode (.interp3d x y nx ny xbase ybase zbase)
  | .tableAccess cmd e =>
    (∃ x n base, cmd = encode (.interp2d x n base) ∧ uint32 base ≤ e.addr ∧ e.addr < uint32 base + 8 * uint32 n) ∨
    (∃ x y nx ny xbase ybase zbase, cmd = encode (.interp3d x y nx ny xbase ybase zbase) ∧
      (instrExtents (.interp3d x y nx ny xbase ybase zbase)).any (·.holds e.addr) = true)

/-- A refused word is one the decoder refuses, whatever its operand slots hold (R66, R193). -/
def Reserved (cmd : Word) : Prop := ∀ a : Vector Word 7, decode ⟨cmd, a⟩ = .error (.reservedEncoding cmd)

/-- The invariant of the machine: table memory is canonical (log 11), the build is legal (R6), a stopped block keeps
`Busy` with the command that stopped it (R25, R192, R193), an accepted command is owed a response (R215), and the
record and the mark hold only what Table FAULTS lets them hold (R190). -/
structure State.Inv (s : State) : Prop where
  memory : s.memory.Wf
  cfg : s.cfg.legal = true
  stopped : ∀ cause, s.stop = some cause → s.StopMatches cause
  owed : ∀ c, s.phase = .busy c → s.unanswered = true
  faults : ∀ f ∈ s.faultRecord, f.Sound
  refused : ∀ w ∈ s.refusals, Reserved w

/-- Two states a command cannot tell apart beyond what it is given: one build, one value of every byte (R35, R49). -/
abbrev State.SameInputs (s t : State) (regions : List Region) : Prop :=
  s.cfg = t.cfg ∧ ∀ addr, (regions.any fun r => r.holds addr) = true → s.byteAt addr = t.byteAt addr

end Sys2Proof.Machine
end

