-- ==== Sys2Proof/Certificates/Slice0/Obligations.lean ====
section
/-! DEFINITION. The statements for the provers, from the spec's numbered rules. Results are stated with the library's
integer operations (`Int.bmod`, `Int.tdiv`, `Int.fdiv`), not with the primitives the model computes them by. -/

namespace Sys2Proof.Claims

open Sys2Proof.Machine

/-- `shr` of R11 by the library's divisions. -/
def libShr (round : ShrRound) (v : Int) (n : Nat) : Int :=
  match round with
  | .towardZero => Int.tdiv v (2 ^ n)
  | .floor => Int.fdiv v (2 ^ n)

/-- An intermediate of R82, R83 or R151: its 32-bit wrap under INT32, itself under WIDE. -/
def libNarrow (width : Intermediate) (v : Int) : Int :=
  match width with
  | .int32 => v.bmod (2 ^ 32)
  | .wide => v

/-- The multiply of R82 by the library's operations, before the final wrap. -/
def libMul (cfg : Cfg) (a b : Int) : Int := libShr cfg.shrRound (libNarrow cfg.mulProduct (a * b)) cfg.fracBits

/-- `lerp` of R151 by the library's operations. -/
def libLerp (width : Intermediate) (q x0 y0 x1 y1 : Int) : Int :=
  let num := libNarrow width (libNarrow width (q - x0) * libNarrow width (y1 - y0))
  let den := libNarrow width (x1 - x0)
  let half := |den| / 2
  let moved := libNarrow width (if 0 ≤ num then num + half else num - half)
  (y0 + libNarrow width (Int.tdiv moved den)).bmod (2 ^ 32)

/-- The state after a response: `phase` is `Idle`, the response is the requester's, nothing else has changed. -/
def answered (s : State) (r0 : Word) (r1 : Option Word) : State :=
  { s with phase := .idle, responses := s.responses ++ [⟨r0, r1⟩], unanswered := false }

/-- The state after a fault: recorded, stopped, nothing else changed. -/
def faulted (s : State) (f : CommandFault) : State :=
  { s with stop := some (.fault f), faultRecord := s.faultRecord ++ [f] }

/-- The requester has no move before the block's: it waits for a response, or has only a command to issue, or nothing. -/
def HostWaits (s : State) : Prop :=
  s.script = [] ∨ (∃ cmd operands rest, s.script = .issue cmd operands :: rest) ∨ ∃ rest, s.script = .await :: rest

/-- The requester has no move left, or its next move is to issue a command. -/
def OnlyIssues (s : State) : Prop := s.script = [] ∨ ∃ cmd operands rest, s.script = .issue cmd operands :: rest

/-- A write of `n` bytes from `addr` touches no table of a command in flight (R50). -/
def MayWrite (s : State) (addr n : Nat) : Prop :=
  ∀ c, s.stop = none → s.phase = .busy c →
    ∀ k < n, ∀ r ∈ commandExtents c, ¬ (r.base ≤ addr + k ∧ addr + k < r.base + r.size)

/-- The requester puts the word `w` into a slot that it fills from `x` (R21, R69). -/
def Supplies (s : State) (x : Source) (w : Word) : Prop :=
  match x with
  | .word v => w = v
  | .result n slot =>
    ∃ r : Response, s.responses[n]? = some r ∧ ((slot = 0 ∧ w = r.r0) ∨ (slot = 1 ∧ r.r1 = some w))

/-- The bullets of R66 on a command word's bits. -/
def ReservedWord (w : Word) : Prop :=
  w.toNat / 2 ^ 21 ≠ 0 ∨ w.toNat / 2 ^ 13 % 2 ^ 3 ≠ 0 ∨
  (w.toNat % 2 ^ 8 = 0x01 ∧ (w.toNat / 2 ^ 8 % 2 ^ 5 = 31 ∨ w.toNat / 2 ^ 16 % 2 ^ 5 = 31)) ∨
  (w.toNat % 2 ^ 8 ≠ 0x01 ∧ (w.toNat / 2 ^ 8 % 2 ^ 5 ≠ 0 ∨ w.toNat / 2 ^ 16 % 2 ^ 5 ≠ 0)) ∨
  w.toNat % 2 ^ 8 ∉ [0x01, 0x02, 0x03, 0x04, 0x10, 0x11, 0x20, 0x30, 0x40, 0x50, 0x60]

/-- How many bytes a write of the requester stores. -/
def widthBytes (width : WriteWidth) : Nat :=
  match width with
  | .byte => 1
  | .half => 2
  | .word => 4

/-- A run is at its end (R211, R215), or where a step stops and says why: a stopped block whose requester makes no move
that could restart it (R192, R193), a write the model gives no outcome (log 4, log 13), or a command that copies a word the
requester never received (log 15). -/
def AtRest (s : State) : Prop :=
  (s.script = [] ∧ s.stop = none ∧ s.phase = .idle) ∨
  (∃ f, s.stop = some (.fault f) ∧ OnlyIssues s ∧ step s = .fault (.stopped f)) ∨
  (∃ cmd, s.stop = some (.refusal cmd) ∧ OnlyIssues s ∧ step s = .refused (.reservedEncoding cmd)) ∨
  (∃ width addr value rest, s.script = .write width addr value :: rest ∧
    (((∃ c, s.phase = .busy c) ∧ s.stop = none ∧ step s = .fault (.tableWriteRace addr.toNat)) ∨
      (2 ^ 32 < addr.toNat + widthBytes width ∧ step s = .fault (.noSuchByte (2 ^ 32))))) ∨
  ∃ cmd operands rest n slot, s.script = .issue cmd operands :: rest ∧ s.phase = .idle ∧ s.stop = none ∧
    .result n slot ∈ operands ∧ (∀ w, ¬ Supplies s (.result n slot) w) ∧ step s = .fault (.noSuchResult n slot)

/-- `Admitted(addr)` holds and somebody wrote the byte, whose value is `b` (R40, R43). -/
def ByteIs (s : State) (addr : Nat) (b : Byte) : Prop :=
  (∃ r ∈ s.admitted, r.base ≤ addr ∧ addr < r.base + r.size) ∧ s.memory.read addr = some b

/-- The byte address of word `m` in the read order of R171. -/
def gridAddr (nx ny xbase ybase zbase m : Nat) : Nat :=
  if m < nx then xbase + 4 * m
  else if m < nx + ny then ybase + 4 * (m - nx)
  else zbase + 4 * (m - nx - ny)

/-- The 2-D table at `base` holds the points `(X k, Y k)` (Table LAYOUT2D). -/
def Table2d (s : State) (base n : Nat) (X Y : Nat → Int) : Prop :=
  ∀ k < n, s.memRead (base + 8 * k) = .ok (X k) ∧ s.memRead (base + 8 * k + 4) = .ok (Y k)

/-- The 3-D table holds the axes `X` and `Y` and the grid `Z i j` (Table LAYOUT3D). -/
def Table3d (s : State) (nx ny xbase ybase zbase : Nat) (X Y : Nat → Int) (Z : Nat → Nat → Int) : Prop :=
  (∀ i < nx, s.memRead (xbase + 4 * i) = .ok (X i)) ∧ (∀ j < ny, s.memRead (ybase + 4 * j) = .ok (Y j)) ∧
  ∀ j < ny, ∀ i < nx, s.memRead (zbase + 4 * (j * nx + i)) = .ok (Z i j)

/-- Strictly ascending over the first `n` values (R153, R172). -/
def Rising (n : Nat) (V : Nat → Int) : Prop := ∀ k, 1 ≤ k → k < n → V (k - 1) < V k

/-- `i` is the upper index of the segment R150's scan selects among `n` values. -/
def Brackets (n : Nat) (V : Nat → Int) (q : Int) (i : Nat) : Prop :=
  1 ≤ i ∧ i ≤ n - 1 ∧ (∀ j, 1 ≤ j → j < i → V j < q) ∧ (i < n - 1 → q ≤ V i)

/-- The pre-rotation of R112 on the operands' values: the start of the working pair, and the angle offset. -/
def Quadrant (a b re im off : Int) : Prop :=
  (a < 0 ∧ b < 0 ∧ re = (-b).bmod (2 ^ 32) ∧ im = a ∧ off = -16384) ∨
  (a < 0 ∧ 0 ≤ b ∧ re = b ∧ im = (-a).bmod (2 ^ 32) ∧ off = 16384) ∨
  (0 ≤ a ∧ re = a ∧ im = b ∧ off = 0)

/-- The 14 micro-rotations of R113, each result narrowed by `f`. -/
def Rotates (cfg : Cfg) (f : Int → Int) (re im acc : Nat → Int) : Prop :=
  acc 0 = 0 ∧ ∀ i < 14,
    (im i < 0 → re (i + 1) = f (re i - Int.fdiv (im i) (2 ^ i)) ∧ im (i + 1) = f (im i + Int.fdiv (re i) (2 ^ i)) ∧
      acc (i + 1) = acc i - (cfg.cordicAtan.getD i 0 : Nat)) ∧
    (0 ≤ im i → re (i + 1) = f (re i + Int.fdiv (im i) (2 ^ i)) ∧ im (i + 1) = f (im i - Int.fdiv (re i) (2 ^ i)) ∧
      acc (i + 1) = acc i + (cfg.cordicAtan.getD i 0 : Nat))

/-- The move that issues a decoded command with its own words. -/
def issueOf (i : Instr) : HostMove :=
  match encode i with
  | [] => .await
  | cmd :: operands => .issue cmd (operands.map .word)

/-- `n` is the rounding of `t` that `Cfg.LIT_ROUND` selects (R80). -/
def RoundsTo (round : LitRound) (t : Rat) (n : Int) : Prop :=
  match round with
  | .nearestAway => 2 * |t - n| ≤ 1 ∧ (2 * |t - n| = 1 → |t| ≤ |(n : Rat)|)
  | .towardZero => |t - n| < 1 ∧ |(n : Rat)| ≤ |t| ∧ 0 ≤ t * n

/-- The operands of a line that fill slots: CONV's two formats, and TOF's and FROMF's one, do not (R69, R71). -/
def slotOperands (line : AsmLine) : List AsmOperand :=
  match line.mnemonic with
  | .conv => line.operands.drop 2
  | .tof => line.operands.drop 1
  | .fromf => line.operands.drop 1
  | _ => line.operands

/-- What the requester puts into the slot of an operand (R69). -/
def FillsSlot (cfg : Cfg) (labels : List AsmLabel) (o : AsmOperand) (x : Source) : Prop :=
  match o with
  | .decimal n => -2 ^ 31 ≤ n ∧ n ≤ 2 ^ 32 - 1 ∧ x = .word (BitVec.ofInt 32 n)
  | .hex n => n ≤ 2 ^ 32 - 1 ∧ x = .word (BitVec.ofNat 32 n)
  | .result label slot =>
    ∃ l, labels.find? (fun l => l.label == label) = some l ∧ slot < l.resultCount ∧ x = .result l.response slot
  | .fx r => ∃ n, literal cfg.litRound cfg.fracBits r = .ok n ∧ x = .word (BitVec.ofInt 32 n)

/-- A format number as a line writes it (R69). -/
def IsFormat (o : AsmOperand) (f : BitVec 5) : Prop := f.toNat ≤ 30 ∧ o = .decimal f.toNat

/-- The command a line stands for, once the words `ws` fill its slots (R69, R71). -/
def LineMeans (cfg : Cfg) (line : AsmLine) (ws : List Word) (i : Instr) : Prop :=
  match line.mnemonic, line.operands, ws with
  | .conv, [x, y, _], [v] => ∃ fs fd, IsFormat x fs ∧ IsFormat y fd ∧ i = .conv fs fd v
  | .tof, [k, _], [v] => ∃ fs, IsFormat k fs ∧ i = .conv fs (BitVec.ofNat 5 cfg.fracBits) v
  | .fromf, [k, _], [v] => ∃ fd, IsFormat k fd ∧ i = .conv (BitVec.ofNat 5 cfg.fracBits) fd v
  | .fmul, [_, _], [a, b] => i = .fmul a b
  | .fdiv, [_, _], [a, b] => i = .fdiv a b
  | .fabs, [_], [a] => i = .fabs a
  | .sin, [_], [h] => i = .sin h
  | .cos, [_], [h] => i = .cos h
  | .cart2pol, [_, _], [a, b] => i = .cart2pol a b
  | .clarke, [_, _, _], [a, b, c] => i = .clarke a b c
  | .isqrt, [_], [n] => i = .isqrt n
  | .interp2d, [_, _, _], [x, n, base] => i = .interp2d x n base
  | .interp3d, [_, _, _, _, _, _, _], [x, y, nx, ny, xbase, ybase, zbase] =>
    i = .interp3d x y nx ny xbase ybase zbase
  | _, _, _ => False

end Sys2Proof.Claims

open Sys2Proof Sys2Proof.Machine Sys2Proof.Claims

/-! ### The step and the decoder -/

/-- R25: from `Busy(c)` the block serves the decoded command, which is well-formed, in one step; nothing stands around
`exec`. -/
def Obligations.StepRunsTheAcceptedCommand : Prop :=
  ∀ (s : State) (c : Command) (i : Instr),
    s.stop = none → s.phase = .busy c → HostWaits s → decode c = .ok i →
      i.wellFormed = true ∧ step s = exec i s

/-- The placed command is the one the next step runs (the model's choice of log 2). -/
def Obligations.PlacedCommandRunsNext : Prop :=
  ∀ (s : State) (nbits w : Nat) (i : Instr), decodeTableWord nbits w = some i →
    step (s.withFetchWord nbits w) = exec i (s.withFetchWord nbits w)

/-- Words of `95_test_vectors.md` section 2, written out, decode as it says. -/
def Obligations.SpecWordsDecode : Prop :=
  decodeTableWord 64 0x00000003000F0001 = some (.conv 0 15 3) ∧
  decodeTableWord 96 0x000040000000400000000002 = some (.fmul 16384 16384) ∧
  decodeTableWord 64 0x0000400000000010 = some (.sin 16384) ∧
  decodeTableWord 96 0x000200000001800000000020 = some (.cart2pol 98304 131072) ∧
  decodeTableWord 64 0x0000006400000040 = some (.isqrt 100) ∧
  decodeTableWord 32 0x001F0001 = none ∧ decodeTableWord 32 0x0000E040 = none ∧ decodeTableWord 32 0x00000061 = none

/-- Decode and encode agree: the words of every well-formed command decode to it, whatever the slots at or above
`n(op)` hold (R60, R65). -/
def Obligations.DecodeOfEncodedWords : Prop :=
  ∀ (i : Instr) (c : Command), i.wellFormed = true → c.words = encode i → decode c = .ok i

/-- The other direction: a decoded command is well-formed and its words are the command's, so no word has two meanings. -/
def Obligations.DecodedCommandsEncodeBack : Prop :=
  ∀ (i : Instr) (c : Command), decode c = .ok i → i.wellFormed = true ∧ encode i = c.words

/-- R66: exactly the words of its bullets are refused, with no response and the refusal mark set. -/
def Obligations.ReservedWordsAreRefused : Prop :=
  ∀ c : Command,
    (ReservedWord c.cmd ↔ decode c = .error (.reservedEncoding c.cmd)) ∧
    (∀ e, decode c = .error e → e = .reservedEncoding c.cmd) ∧
    ∀ s : State, ReservedWord c.cmd → s.stop = none → s.phase = .busy c → HostWaits s →
      step s = .next { s with stop := some (.refusal c.cmd), refusals := s.refusals ++ [c.cmd] }

/-- R60, R70: a command is read off the front of a stream of words; how many words it takes is `operandCount` of
CMD[7:0]. -/
def Obligations.StreamOfWordsDecodes : Prop :=
  ∀ (i : Instr) (rest : List Word), i.wellFormed = true →
    decodeStream (encode i ++ rest) = .ok (i, rest) ∧
    ∃ cmd operands, encode i = cmd :: operands ∧ operandCount (BitVec.ofNat 8 cmd.toNat) = some operands.length

/-! ### What a step can do -/

/-- R192, R193, R197, R198, R210, S7: a stopped block answers no command and keeps its phase; the requester sees it stop
(log 3), may write memory, and only its reset makes the block run again. -/
def Obligations.StoppedBlockWaitsForReset : Prop :=
  ∀ (s : State) (cause : StopCause), s.stop = some cause →
    (OnlyIssues s → step s = match cause with
      | .fault f => .fault (.stopped f)
      | .refusal cmd => .refused (.reservedEncoding cmd)) ∧
    (∀ rest, s.script = .await :: rest → step s = .next { s with script := rest }) ∧
    (∀ rest, s.script = .reset :: rest → step s = .next { s with script := rest, phase := .idle, stop := none }) ∧
    ∀ t, step s = .next t →
      (∃ rest, s.script = .reset :: rest ∧ t = { s with script := rest, phase := .idle, stop := none }) ∨
      (t.stop = s.stop ∧ t.phase = s.phase ∧ t.responses = s.responses ∧ t.unanswered = s.unanswered)

/-- R192, R193, R210: no step, a reset among them, takes anything out of the fault record, the refusal mark or the
responses received. -/
def Obligations.RecordsOnlyGrow : Prop :=
  ∀ s t : State, step s = .next t →
    s.faultRecord <+: t.faultRecord ∧ s.refusals <+: t.refusals ∧ s.responses <+: t.responses

/-- R32: the ROMs and the build hold their contents from launch on, through every step, a reset among them. -/
def Obligations.BuildAndRomsNeverChange : Prop :=
  (∀ s t : State, step s = .next t → t.cfg = s.cfg) ∧
  ∀ (cfg : Cfg) (bytes : List Host.Cell) (admitted : List Region) (script : List HostMove) (s : State),
    State.launch cfg bytes admitted script = .ok s → s.cfg = cfg

/-- `Admitted` stays as a launch gives it, the model's choice of log 12. -/
def Obligations.AdmittedIsFixedInARun : Prop :=
  (∀ s t : State, step s = .next t → t.admitted = s.admitted) ∧
  ∀ (cfg : Cfg) (bytes : List Host.Cell) (admitted : List Region) (script : List HostMove) (s : State),
    State.launch cfg bytes admitted script = .ok s → s.admitted = admitted

/-- R40, R42, R55: only a write of the requester changes table memory, and only the bytes it stores. -/
def Obligations.OnlyTheRequesterWritesMemory : Prop :=
  ∀ s t : State, step s = .next t →
    (∀ addr, t.memory.read addr = s.memory.read addr) ∨
    ∃ width addr value rest, s.script = .write width addr value :: rest ∧
      (∀ a, a < addr.toNat ∨ addr.toNat + widthBytes width ≤ a → t.memory.read a = s.memory.read a) ∧
      ∀ k < widthBytes width, t.memory.read (addr.toNat + k) = some (BitVec.ofNat 8 (value.toNat / 256 ^ k))

/-- The frame of all eleven commands: memory, every byte as it reads, the build, `Admitted`, the requester's moves and
the refusal mark are unchanged; a response changes nothing but the phase and the responses, and a fault nothing but the
stop and the record, which then holds the command (R190, R192). -/
def Obligations.CommandsChangeOnlyTheInterface : Prop :=
  ∀ (i : Instr) (s t : State), exec i s = .next t →
    t.memory = s.memory ∧ (∀ addr, t.byteAt addr = s.byteAt addr) ∧ t.cfg = s.cfg ∧ t.admitted = s.admitted ∧
    t.script = s.script ∧ t.refusals = s.refusals ∧
    ((∃ r0 r1, t = answered s r0 r1) ∨ ∃ f, f.command = encode i ∧ t = faulted s f)

/-- R190, R219: every accepted command ends in the block's one step, with a response, a fault or a refusal. -/
def Obligations.EveryCommandEndsInOneStep : Prop :=
  ∀ (s : State) (c : Command), s.stop = none → s.phase = .busy c → HostWaits s →
    ∃ t, step s = .next t ∧
      ((∃ r0 r1, t = answered s r0 r1) ∨ (∃ f, f.command = c.words ∧ t = faulted s f) ∨
        t = { s with stop := some (.refusal c.cmd), refusals := s.refusals ++ [c.cmd] })

/-- R25: the block accepts a command only in `Idle`, running, when the requester issues it. -/
def Obligations.CommandsAreAcceptedOnlyInIdle : Prop :=
  ∀ (s t : State) (c : Command), step s = .next t → t.phase = .busy c → s.phase ≠ .busy c →
    s.phase = .idle ∧ s.stop = none ∧ ∃ operands rest, s.script = .issue c.cmd operands :: rest ∧ t.script = rest

/-- R210: what a reset does, from every state. -/
def Obligations.ResetReturnsToIdle : Prop :=
  (∀ (s : State) (rest : List HostMove), s.script = .reset :: rest →
    step s = .next { s with script := rest, phase := .idle, stop := none }) ∧
  State.reset.phase = .idle ∧ State.reset.stop = none

/-- R211, R215: a run that has ended stays ended, with its observation. With no move left to the requester the idle block
waits; each of the moves that may be left, none of them a command, is made (a write past the end of the space stops,
log 13). -/
def Obligations.FinalStatesWait : Prop :=
  ∀ s : State, s.Final → s.stop = none →
    (s.script = [] → step s = .next s) ∧
    ((∃ t, step s = .next t ∧ t.Final ∧ t.stop = none ∧ t.observation = s.observation) ∨
      ∃ width addr value rest, s.script = .write width addr value :: rest ∧ 2 ^ 32 < addr.toNat + widthBytes width ∧
        step s = .fault (.noSuchByte (2 ^ 32)))

/-- R25, R215: in a run with nothing recorded, the response to the last command ends the run, whatever moves other than
commands are left to the requester, and the observation is the responses in issue order. -/
def Obligations.LastResponseEndsTheRun : Prop :=
  ∀ (s : State) (c : Command) (i : Instr) (r : Response), s.stop = none → s.phase = .busy c → HostWaits s →
    s.AllIssued → s.faultRecord = [] → s.refusals = [] → decode c = .ok i →
    exec i s = .next (answered s r.r0 r.r1) →
    ∃ t, step s = .next t ∧ t.Final ∧ t.observation = s.observation ++ [r]

/-- R47, and R50 with the model's choice of log 4: a write into a table of the running command is a named race; a write
apart from its tables is made, and the command stays in flight. -/
def Obligations.WritesWhileBusy : Prop :=
  ∀ (s : State) (c : Command) (width : WriteWidth) (addr value : Word) (rest : List HostMove),
    s.stop = none → s.phase = .busy c → s.script = .write width addr value :: rest →
    ((∃ k < widthBytes width, ∃ r ∈ commandExtents c, r.base ≤ addr.toNat + k ∧ addr.toNat + k < r.base + r.size) →
      step s = .fault (.tableWriteRace addr.toNat)) ∧
    (addr.toNat + widthBytes width ≤ 2 ^ 32 →
      (∀ k < widthBytes width, ∀ r ∈ commandExtents c, ¬ (r.base ≤ addr.toNat + k ∧ addr.toNat + k < r.base + r.size)) →
      ∃ t, step s = .next t ∧ t.phase = s.phase ∧ t.stop = none ∧ t.script = rest ∧ t.responses = s.responses ∧
        ∀ k < widthBytes width, t.memory.read (addr.toNat + k) = some (BitVec.ofNat 8 (value.toNat / 256 ^ k))) ∧
    (∀ x n base, decode c = .ok (.interp2d x n base) → commandExtents c = [⟨base.toNat, 8 * n.toNat⟩]) ∧
    ∀ x y nx ny xbase ybase zbase, decode c = .ok (.interp3d x y nx ny xbase ybase zbase) →
      commandExtents c = [⟨xbase.toNat, 4 * nx.toNat⟩, ⟨ybase.toNat, 4 * ny.toNat⟩,
        ⟨zbase.toNat, 4 * (nx.toNat * ny.toNat)⟩]

/-- R55, R214: a write the requester makes takes place in a step, whether the block is idle, stopped or busy with a command
whose tables it does not touch, and changes nothing but its bytes; past address 2^32−1 it stops (log 13). -/
def Obligations.WritesTakePlace : Prop :=
  ∀ (s : State) (width : WriteWidth) (addr value : Word) (rest : List HostMove),
    s.script = .write width addr value :: rest → MayWrite s addr.toNat (widthBytes width) →
    (addr.toNat + widthBytes width ≤ 2 ^ 32 →
      ∃ m : Memory, step s = .next { s with script := rest, memory := m } ∧
        (∀ k < widthBytes width, m.read (addr.toNat + k) = some (BitVec.ofNat 8 (value.toNat / 256 ^ k))) ∧
        ∀ a, a < addr.toNat ∨ addr.toNat + widthBytes width ≤ a → m.read a = s.memory.read a) ∧
    (2 ^ 32 < addr.toNat + widthBytes width → step s = .fault (.noSuchByte (2 ^ 32)))

/-- R21, R69: the requester issues a command whose slots it fills with words and with copies of earlier result words, in
any mix; the first copy of a word it never received stops it (log 15). -/
def Obligations.ResultWordsAreCopied : Prop :=
  ∀ (s : State) (cmd : Word) (rest : List HostMove), s.stop = none → s.phase = .idle →
    (∀ (operands : List Source) (ws : List Word), s.script = .issue cmd operands :: rest →
      List.Forall₂ (Supplies s) operands ws →
      step s = .next { s with phase := .busy (Command.ofWords (cmd :: ws)), unanswered := true, script := rest }) ∧
    ∀ (before after : List Source) (ws : List Word) (n slot : Nat),
      s.script = .issue cmd (before ++ .result n slot :: after) :: rest → List.Forall₂ (Supplies s) before ws →
      (∀ w, ¬ Supplies s (.result n slot) w) → step s = .fault (.noSuchResult n slot)

/-! ### Launch and the invariant -/

/-- R6, R26, R28 to R31: a build is refused exactly when a field of Table CFG is not legal. -/
def Obligations.IllegalBuildsAreRefused : Prop :=
  ∀ (cfg : Cfg) (bytes : List Host.Cell) (admitted : List Region) (script : List HostMove),
    (∃ s, State.launch cfg bytes admitted script = .ok s) ↔
      cfg.fracBits ≤ 30 ∧
      (cfg.sineTable.length = 256 ∧
        (∀ k ≤ 128, (cfg.sineTable.getD (128 - k) 0).toInt = (cfg.sineTable.getD k 0).toInt) ∧
        ∀ k < 256, (cfg.sineTable.getD ((k + 128) % 256) 0).toInt = -(cfg.sineTable.getD k 0).toInt) ∧
      (cfg.cordicAtan.length = 14 ∧ (∀ t ∈ cfg.cordicAtan, t ≤ 32767) ∧
        ∀ i < 13, cfg.cordicAtan.getD (i + 1) 0 ≤ cfg.cordicAtan.getD i 0) ∧
      (1 ≤ cfg.cordicGainQ16 ∧ cfg.cordicGainQ16 ≤ 65535) ∧
      -2 ^ 31 ≤ cfg.invSqrt3 ∧ cfg.invSqrt3 ≤ 2 ^ 31 - 1

/-- R213: the named fields of a launch, and nothing in flight, recorded or refused; each byte of table memory is the
last one given for its address. -/
def Obligations.LaunchHoldsItsPremises : Prop :=
  ∀ (cfg : Cfg) (bytes : List Host.Cell) (admitted : List Region) (script : List HostMove) (s : State),
    State.launch cfg bytes admitted script = .ok s →
      s.cfg = cfg ∧ s.admitted = admitted ∧ s.script = script ∧ s.phase = .idle ∧ s.stop = none ∧
      s.faultRecord = [] ∧ s.refusals = [] ∧ s.responses = [] ∧ s.unanswered = false ∧
      ∀ addr < 2 ^ 32, s.memory.read addr = (bytes.reverse.find? fun x => x.1 == addr).map (·.2)

/-- The invariant holds at reset; that the default build of `State.reset` is legal is the spec's Table CFG, that it is
the build of `State.reset` is the model's choice (log 1). -/
def Obligations.InvariantHoldsAtReset : Prop := State.reset.Inv

/-- The invariant holds at every launch, whatever bytes the requester gives in whatever order. -/
def Obligations.InvariantHoldsAtLaunch : Prop :=
  ∀ (cfg : Cfg) (bytes : List Host.Cell) (admitted : List Region) (script : List HostMove) (s : State),
    State.launch cfg bytes admitted script = .ok s → s.Inv

/-- Every step keeps the invariant, from every state that meets it. -/
def Obligations.EveryStepKeepsTheInvariant : Prop := ∀ s t : State, s.Inv → step s = .next t → t.Inv

/-! ### Runs -/

/-- R25, R49, R215: a sequence of commands, each of which answers when run at the start, is answered in issue order, each
with the response it has at the start, in two steps a command (the order of moves of log 2 and log 3); nothing else of the
machine changes. -/
def Obligations.RunOfCommandsAnswersInOrder : Prop :=
  ∀ (s : State) (cs : List (Instr × Response)), s.stop = none → s.phase = .idle →
    s.script = cs.map (fun p => issueOf p.1) →
    (∀ p ∈ cs, p.1.wellFormed = true ∧ exec p.1 s = .next (answered s p.2.r0 p.2.r1)) →
    core.run (2 * cs.length) s =
      .next { s with script := [], responses := s.responses ++ cs.map (·.2),
                     unanswered := if cs = [] then s.unanswered else false }

/-- R211, R219: within two steps a move and one more (the order of moves of log 2 and log 3), a run has no move left and is
idle, or is where a step stops for a reason it names. -/
def Obligations.EveryScriptRunsOut : Prop :=
  ∀ s : State, ∃ k ≤ 2 * s.script.length + 1, ∃ t, core.run k s = .next t ∧ AtRest t

/-- R25, R192, R193, R210, R214: a run goes on after a reset. A command that faulted or was refused is left on the record,
and the command after the reset is answered as it would be at the start; a command that the reset drops leaves nothing.
The requester waits, or does not, before its reset (log 3). -/
def Obligations.ResetRestartsTheRun : Prop :=
  ∀ (s : State) (j : Instr) (r : Response), s.stop = none → s.phase = .idle → j.wellFormed = true →
    exec j s = .next (answered s r.r0 r.r1) →
    (∀ (i : Instr) (f : CommandFault), i.wellFormed = true → exec i s = .next (faulted s f) →
      s.script = [issueOf i, .await, .reset, issueOf j] →
      core.run 6 s = .next { s with script := [], responses := s.responses ++ [r], unanswered := false,
                                    faultRecord := s.faultRecord ++ [f] }) ∧
    (∀ (cmd : Word) (ws : List Word), ReservedWord cmd →
      s.script = [.issue cmd (ws.map .word), .await, .reset, issueOf j] →
      core.run 6 s = .next { s with script := [], responses := s.responses ++ [r], unanswered := false,
                                    refusals := s.refusals ++ [cmd] }) ∧
    ∀ i : Instr, s.script = [issueOf i, .reset, issueOf j] →
      core.run 4 s = .next { s with script := [], responses := s.responses ++ [r], unanswered := false }

/-- R35, R154, R173: a command's end depends only on its operands, the build and the bytes of its declared extents. -/
def Obligations.CommandsDependOnlyOnTheirInputs : Prop :=
  ∀ (i : Instr) (s t : State), s.SameInputs t (instrExtents i) →
    (∃ r0 r1, exec i s = .next (answered s r0 r1) ∧ exec i t = .next (answered t r0 r1)) ∨
    ∃ f, exec i s = .next (faulted s f) ∧ exec i t = .next (faulted t f)

/-! ### Table memory -/

/-- R43 with R41: `MemRead` on every address. -/
def Obligations.MemReadFollowsItsRule : Prop :=
  ∀ (s : State) (addr : Nat),
    (addr % 4 ≠ 0 → s.memRead addr = .error ⟨addr, .misaligned⟩) ∧
    (addr % 4 = 0 → addr + 3 > 2 ^ 32 - 1 → s.memRead addr = .error ⟨addr, .outOfRange⟩) ∧
    (addr % 4 = 0 → addr + 3 ≤ 2 ^ 32 - 1 → (∃ k < 4, ∀ b, ¬ ByteIs s (addr + k) b) →
      s.memRead addr = .error ⟨addr, .notAdmitted⟩) ∧
    ∀ b0 b1 b2 b3 : Byte, addr % 4 = 0 → addr + 3 ≤ 2 ^ 32 - 1 → ByteIs s addr b0 → ByteIs s (addr + 1) b1 →
      ByteIs s (addr + 2) b2 → ByteIs s (addr + 3) b3 →
      s.memRead addr =
        .ok (BitVec.ofNat 32 (b0.toNat + 2 ^ 8 * b1.toNat + 2 ^ 16 * b2.toNat + 2 ^ 24 * b3.toNat)).toInt

/-- R41, R55: a word that the requester writes whole, as two halves or as four bytes is the word the block reads. -/
def Obligations.WrittenWordsAreRead : Prop :=
  ∀ (s : State) (addr value : Word) (rest : List HostMove), addr.toNat % 4 = 0 → MayWrite s addr.toNat 4 →
    (∀ k < 4, ∃ r ∈ s.admitted, r.base ≤ addr.toNat + k ∧ addr.toNat + k < r.base + r.size) →
    (s.script = .write .word addr value :: rest →
      ∃ t, step s = .next t ∧ t.script = rest ∧ t.memRead addr.toNat = .ok value.toInt) ∧
    (s.script = .write .half addr value :: .write .half (addr + 2) (value >>> 16) :: rest →
      ∃ t, core.run 2 s = .next t ∧ t.script = rest ∧ t.memRead addr.toNat = .ok value.toInt) ∧
    (s.script = .write .byte (addr + 3) (value >>> 24) :: .write .byte addr value ::
        .write .byte (addr + 2) (value >>> 16) :: .write .byte (addr + 1) (value >>> 8) :: rest →
      ∃ t, core.run 4 s = .next t ∧ t.script = rest ∧ t.memRead addr.toNat = .ok value.toInt)

/-! ### The fixed-point format layer -/

/-- R81: CONV. -/
def Obligations.ConvResult : Prop :=
  ∀ (fs fd : BitVec 5) (v : Word) (s : State), fs.toNat ≤ 30 → fd.toNat ≤ 30 →
    decode (Command.ofWords [BitVec.ofNat 32 (0x01 + 2 ^ 8 * fs.toNat + 2 ^ 16 * fd.toNat), v]) = .ok (.conv fs fd v) ∧
    exec (.conv fs fd v) s = .next (answered s (BitVec.ofInt 32
      (if fs.toNat ≤ fd.toNat then v.toInt * 2 ^ (fd.toNat - fs.toNat)
       else libShr s.cfg.shrRound v.toInt (fs.toNat - fd.toNat))) none)

/-- R85: the round trip of CONV, lossless upward without overflow, truncating downward. -/
def Obligations.ConvRoundTrip : Prop :=
  ∀ (x y : BitVec 5) (v : Word) (s t : State), x.toNat ≤ 30 → y.toNat ≤ 30 →
    (x.toNat ≤ y.toNat → -2 ^ 31 ≤ v.toInt * 2 ^ (y.toNat - x.toNat) →
      v.toInt * 2 ^ (y.toNat - x.toNat) ≤ 2 ^ 31 - 1 →
      ∃ w, exec (.conv x y v) s = .next (answered s w none) ∧ exec (.conv y x w) t = .next (answered t v none)) ∧
    (y.toNat < x.toNat →
      ∃ w u, exec (.conv x y v) s = .next (answered s w none) ∧ exec (.conv y x w) t = .next (answered t u none) ∧
        u.toInt = libShr s.cfg.shrRound v.toInt (x.toNat - y.toNat) * 2 ^ (x.toNat - y.toNat) ∧
        (s.cfg.shrRound = .towardZero →
          u.toInt = v.toInt - v.toInt.tmod (2 ^ (x.toNat - y.toNat)) ∧ u.toInt.natAbs ≤ v.toInt.natAbs))

/-- R82: FMUL. -/
def Obligations.FmulResult : Prop :=
  ∀ (a b : Word) (s : State),
    decode (Command.ofWords [0x00000002, a, b]) = .ok (.fmul a b) ∧
    exec (.fmul a b) s = .next (answered s (BitVec.ofInt 32 (libMul s.cfg a.toInt b.toInt)) none)

/-- R82's corner cases: FMUL is commutative, and without a wrap its error is below one unit. -/
def Obligations.FmulErrorBelowOneUnit : Prop :=
  ∀ (a b : Word) (s : State),
    exec (.fmul a b) s = exec (.fmul b a) s ∧
    ((s.cfg.mulProduct = .int32 → -2 ^ 31 ≤ a.toInt * b.toInt ∧ a.toInt * b.toInt ≤ 2 ^ 31 - 1) →
      -2 ^ 31 ≤ libMul s.cfg a.toInt b.toInt → libMul s.cfg a.toInt b.toInt ≤ 2 ^ 31 - 1 →
      ∃ r : Word, exec (.fmul a b) s = .next (answered s r none) ∧
        |r.toInt * 2 ^ s.cfg.fracBits - a.toInt * b.toInt| < 2 ^ s.cfg.fracBits)

/-- R83: FDIV, on a divisor that is not zero. -/
def Obligations.FdivResult : Prop :=
  ∀ (a b : Word) (s : State),
    decode (Command.ofWords [0x00000003, a, b]) = .ok (.fdiv a b) ∧
    (b ≠ 0 → exec (.fdiv a b) s = .next (answered s (BitVec.ofInt 32
      (Int.tdiv (libNarrow s.cfg.divDividend (a.toInt * 2 ^ s.cfg.fracBits)) b.toInt)) none)) ∧
    (b = 0 → exec (.fdiv a b) s = .next (faulted s (.divideByZero [0x00000003, a, b])))

/-- R191: FDIV raises `DIVIDE_BY_ZERO` on a zero divisor, recording its command, and no other command raises it. -/
def Obligations.OnlyFdivDividesByZero : Prop :=
  (∀ (a : Word) (s : State), exec (.fdiv a 0) s = .next (faulted s (.divideByZero [0x00000003, a, 0]))) ∧
  ∀ (i : Instr) (s : State) (cmd : List Word), exec i s = .next (faulted s (.divideByZero cmd)) →
    ∃ a, i = .fdiv a 0 ∧ cmd = [0x00000003, a, 0]

/-- R84: FABS. -/
def Obligations.FabsResult : Prop :=
  ∀ (a : Word) (s : State),
    decode (Command.ofWords [0x00000004, a]) = .ok (.fabs a) ∧
    ∃ r : Word, exec (.fabs a) s = .next (answered s r none) ∧
      (a ≠ 0x80000000 → r.toInt = |a.toInt|) ∧ (a = 0x80000000 → r = 0x80000000)

/-! ### The trigonometric lookup -/

/-- R101: SIN. -/
def Obligations.SinResult : Prop :=
  ∀ (angle : Word) (s : State),
    decode (Command.ofWords [0x00000010, angle]) = .ok (.sin angle) ∧
    exec (.sin angle) s =
      .next (answered s ((s.cfg.sineTable.getD (angle.toNat / 256 % 256) 0).signExtend 32) none)

/-- R102: COS. -/
def Obligations.CosResult : Prop :=
  ∀ (angle : Word) (s : State),
    decode (Command.ofWords [0x00000011, angle]) = .ok (.cos angle) ∧
    exec (.cos angle) s =
      .next (answered s ((s.cfg.sineTable.getD ((angle.toNat / 256 % 256 + 64) % 256) 0).signExtend 32) none)

/-- R103: the identities of SIN and COS for a legal table. -/
def Obligations.TrigIdentities : Prop :=
  ∀ (a : Word) (s : State), s.cfg.legal = true →
    (∃ x y : Word, exec (.sin a) s = .next (answered s x none) ∧
      exec (.sin (a + 32768)) s = .next (answered s y none) ∧ x.toInt = -y.toInt) ∧
    exec (.cos a) s = exec (.sin (a + 16384)) s ∧
    ∀ b : Word, a.toNat / 256 % 256 = b.toNat / 256 % 256 →
      exec (.sin a) s = exec (.sin b) s ∧ exec (.cos a) s = exec (.cos b) s

/-! ### The rotator -/

/-- R110 to R114: CART2POL on every input but the special zero: the quadrant, the 14 wrapping micro-rotations, the gain
and the angle. -/
def Obligations.Cart2polFollowsTheRecurrence : Prop :=
  ∀ (a b : Word) (s : State),
    decode (Command.ofWords [0x00000020, a, b]) = .ok (.cart2pol a b) ∧
    (¬ (s.cfg.cordicZeroSpecial = .enabled ∧ a = 0 ∧ b = 0) →
      ∃ (re im acc : Nat → Int) (off : Int),
        Quadrant a.toInt b.toInt (re 0) (im 0) off ∧ Rotates s.cfg (fun n => n.bmod (2 ^ 32)) re im acc ∧
        exec (.cart2pol a b) s = .next (answered s
          (BitVec.ofInt 32 (libShr s.cfg.shrRound (re 14 * (s.cfg.cordicGainQ16 : Int)) 16))
          (some (BitVec.ofInt 32 ((acc 14 + off).bmod (2 ^ 16))))))

/-- R115: the zero input under both settings of `CORDIC_ZERO_SPECIAL`. -/
def Obligations.Cart2polOfZero : Prop :=
  ∀ s : State, s.cfg.legal = true →
    (s.cfg.cordicZeroSpecial = .enabled → exec (.cart2pol 0 0) s = .next (answered s 0 (some 0))) ∧
    (s.cfg.cordicZeroSpecial = .disabled →
      exec (.cart2pol 0 0) s =
        .next (answered s 0 (some (BitVec.ofInt 32 ((s.cfg.cordicAtan.sum : Int).bmod (2 ^ 16))))))

/-- R118: on moderate inputs no wrap changes a value, so CART2POL is the unwrapped rotator, its magnitude included. -/
def Obligations.Cart2polDoesNotWrap : Prop :=
  ∀ (a b : Word) (s : State), s.cfg.legal = true → |a.toInt| ≤ 2 ^ 29 → |b.toInt| ≤ 2 ^ 29 → ¬ (a = 0 ∧ b = 0) →
    ∃ (re im acc : Nat → Int) (off : Int) (mag : Word),
      Quadrant a.toInt b.toInt (re 0) (im 0) off ∧ Rotates s.cfg (fun n => n) re im acc ∧
      (∀ i ≤ 14, |re i| < 2 ^ 31 ∧ |im i| < 2 ^ 31) ∧
      mag.toInt = libShr s.cfg.shrRound (re 14 * (s.cfg.cordicGainQ16 : Int)) 16 ∧
      exec (.cart2pol a b) s = .next (answered s mag (some (BitVec.ofInt 32 ((acc 14 + off).bmod (2 ^ 16)))))

/-! ### The Clarke transform and the square root -/

/-- R130: CLARKE; the third phase is not read. -/
def Obligations.ClarkeResult : Prop :=
  ∀ (a b c : Word) (s : State),
    decode (Command.ofWords [0x00000030, a, b, c]) = .ok (.clarke a b c) ∧
    exec (.clarke a b c) s = .next (answered s a
      (some (BitVec.ofInt 32 (libMul s.cfg ((a.toInt + 2 * b.toInt).bmod (2 ^ 32)) s.cfg.invSqrt3))))

/-- R131: without a wrap the imaginary part is within one unit of the exact product. -/
def Obligations.ClarkeErrorBelowOneUnit : Prop :=
  ∀ (a b c : Word) (s : State), -2 ^ 31 ≤ a.toInt + 2 * b.toInt → a.toInt + 2 * b.toInt ≤ 2 ^ 31 - 1 →
    (s.cfg.mulProduct = .int32 → -2 ^ 31 ≤ (a.toInt + 2 * b.toInt) * s.cfg.invSqrt3 ∧
      (a.toInt + 2 * b.toInt) * s.cfg.invSqrt3 ≤ 2 ^ 31 - 1) →
    -2 ^ 31 ≤ libMul s.cfg (a.toInt + 2 * b.toInt) s.cfg.invSqrt3 →
    libMul s.cfg (a.toInt + 2 * b.toInt) s.cfg.invSqrt3 ≤ 2 ^ 31 - 1 →
    ∃ im : Word, exec (.clarke a b c) s = .next (answered s a (some im)) ∧
      |im.toInt * 2 ^ s.cfg.fracBits - (a.toInt + 2 * b.toInt) * s.cfg.invSqrt3| < 2 ^ s.cfg.fracBits

/-- R140: ISQRT returns the floor square root of its unsigned radicand. -/
def Obligations.IsqrtIsTheFloorRoot : Prop :=
  ∀ (n : Word) (s : State),
    decode (Command.ofWords [0x00000040, n]) = .ok (.isqrt n) ∧
    ∃ r : Nat, r ≤ 65535 ∧ r * r ≤ n.toNat ∧ n.toNat < (r + 1) * (r + 1) ∧
      exec (.isqrt n) s = .next (answered s (BitVec.ofNat 32 r) none)

/-! ### The interpolators -/

/-- R150: the segment search. -/
def Obligations.SegmentSearchBrackets : Prop :=
  ∀ (v : List Int) (q : Int), 2 ≤ v.length → Brackets v.length (fun k => v.getD k 0) q (seg v q)

/-- R151: the rounded linear formula, to nearest with ties away from zero under WIDE, wrapping under INT32, with a
denominator that is not zero. -/
def Obligations.LinearFormulaRounds : Prop :=
  ∀ q x0 y0 x1 y1 : Int,
    (∀ width, lerp width q x0 y0 x1 y1 = libLerp width q x0 y0 x1 y1) ∧
    (x0 ≠ x1 → ∃ quo : Int, lerp .wide q x0 y0 x1 y1 = (y0 + quo).bmod (2 ^ 32) ∧
      2 * |quo * (x1 - x0) - (q - x0) * (y1 - y0)| ≤ |x1 - x0| ∧
      (2 * |quo * (x1 - x0) - (q - x0) * (y1 - y0)| = |x1 - x0| → |(q - x0) * (y1 - y0)| ≤ |quo * (x1 - x0)|)) ∧
    (1 ≤ x1 - x0 → x1 - x0 ≤ 2 ^ 32 - 1 → ∀ width, libNarrow width (x1 - x0) ≠ 0)

/-- R152, R153: INTERP2D, each of its four outcomes. -/
def Obligations.Interp2dOutcomes : Prop :=
  ∀ (x n base : Word) (s : State),
    decode (Command.ofWords [0x00000050, x, n, base]) = .ok (.interp2d x n base) ∧
    (∀ (k : Nat) (e : AccessFault), k < 2 * n.toNat → (∀ j < k, ∃ v, s.memRead (base.toNat + 4 * j) = .ok v) →
      s.memRead (base.toNat + 4 * k) = .error e →
      exec (.interp2d x n base) s = .next (faulted s (.tableAccess [0x00000050, x, n, base] e))) ∧
    ∀ X Y : Nat → Int, Table2d s base.toNat n.toNat X Y →
      (n.toNat < 2 → exec (.interp2d x n base) s =
        .next (faulted s (.precondition [0x00000050, x, n, base] .interp2d .tooFewPoints))) ∧
      (2 ≤ n.toNat → ¬ Rising n.toNat X → exec (.interp2d x n base) s =
        .next (faulted s (.precondition [0x00000050, x, n, base] .interp2d .notAscending))) ∧
      (2 ≤ n.toNat → Rising n.toNat X → ∃ i, Brackets n.toNat X x.toInt i ∧
        exec (.interp2d x n base) s = .next (answered s (BitVec.ofInt 32
          (libLerp s.cfg.interpArith x.toInt (X (i - 1)) (Y (i - 1)) (X i) (Y i))) none))

/-- R154: under WIDE, INTERP2D returns a point's value at the point, and elsewhere is within one half of the exact
rational value of its segment's line whenever the final sum does not wrap. -/
def Obligations.Interp2dIsExactAtPoints : Prop :=
  ∀ (x n base : Word) (s : State) (X Y : Nat → Int), s.cfg.interpArith = .wide → 2 ≤ n.toNat →
    Table2d s base.toNat n.toNat X Y → Rising n.toNat X →
    (∀ k < n.toNat, x.toInt = X k → exec (.interp2d x n base) s = .next (answered s (BitVec.ofInt 32 (Y k)) none)) ∧
    ∃ (i : Nat) (y : Int), Brackets n.toNat X x.toInt i ∧
      exec (.interp2d x n base) s = .next (answered s (BitVec.ofInt 32 y) none) ∧
      2 * |(y - Y (i - 1)) * (X i - X (i - 1)) - (x.toInt - X (i - 1)) * (Y i - Y (i - 1))| ≤ X i - X (i - 1)

/-- R171, R172: INTERP3D, each of its four outcomes. -/
def Obligations.Interp3dOutcomes : Prop :=
  ∀ (x y nx ny xbase ybase zbase : Word) (s : State),
    decode (Command.ofWords [0x00000060, x, y, nx, ny, xbase, ybase, zbase]) =
      .ok (.interp3d x y nx ny xbase ybase zbase) ∧
    (∀ (m : Nat) (e : AccessFault), m < nx.toNat + ny.toNat + nx.toNat * ny.toNat →
      (∀ j < m, ∃ v,
        s.memRead (gridAddr nx.toNat ny.toNat xbase.toNat ybase.toNat zbase.toNat j) = .ok v) →
      s.memRead (gridAddr nx.toNat ny.toNat xbase.toNat ybase.toNat zbase.toNat m) = .error e →
      exec (.interp3d x y nx ny xbase ybase zbase) s =
        .next (faulted s (.tableAccess [0x00000060, x, y, nx, ny, xbase, ybase, zbase] e))) ∧
    ∀ (X Y : Nat → Int) (Z : Nat → Nat → Int),
      Table3d s nx.toNat ny.toNat xbase.toNat ybase.toNat zbase.toNat X Y Z →
      (nx.toNat < 2 ∨ ny.toNat < 2 → exec (.interp3d x y nx ny xbase ybase zbase) s = .next
        (faulted s (.precondition [0x00000060, x, y, nx, ny, xbase, ybase, zbase] .interp3d .tooFewPoints))) ∧
      (2 ≤ nx.toNat → 2 ≤ ny.toNat → ¬ (Rising nx.toNat X ∧ Rising ny.toNat Y) →
        exec (.interp3d x y nx ny xbase ybase zbase) s = .next
          (faulted s (.precondition [0x00000060, x, y, nx, ny, xbase, ybase, zbase] .interp3d .notAscending))) ∧
      (2 ≤ nx.toNat → 2 ≤ ny.toNat → Rising nx.toNat X → Rising ny.toNat Y →
        ∃ i j, Brackets nx.toNat X x.toInt i ∧ Brackets ny.toNat Y y.toInt j ∧
          exec (.interp3d x y nx ny xbase ybase zbase) s = .next (answered s (BitVec.ofInt 32
            (libLerp s.cfg.interpArith y.toInt (Y (j - 1))
              (libLerp s.cfg.interpArith x.toInt (X (i - 1)) (Z (i - 1) (j - 1)) (X i) (Z i (j - 1)))
              (Y j)
              (libLerp s.cfg.interpArith x.toInt (X (i - 1)) (Z (i - 1) j) (X i) (Z i j)))) none))

/-- R173: under WIDE, INTERP3D returns a grid point's value at the grid point, and on a row of the grid it is the
interpolation of that row. -/
def Obligations.Interp3dIsExactOnTheGrid : Prop :=
  ∀ (x y nx ny xbase ybase zbase : Word) (s : State) (X Y : Nat → Int) (Z : Nat → Nat → Int),
    s.cfg.interpArith = .wide → 2 ≤ nx.toNat → 2 ≤ ny.toNat →
    Table3d s nx.toNat ny.toNat xbase.toNat ybase.toNat zbase.toNat X Y Z →
    Rising nx.toNat X → Rising ny.toNat Y → ∀ j < ny.toNat, y.toInt = Y j →
      (∀ i < nx.toNat, x.toInt = X i → exec (.interp3d x y nx ny xbase ybase zbase) s =
        .next (answered s (BitVec.ofInt 32 (Z i j)) none)) ∧
      ∃ i, Brackets nx.toNat X x.toInt i ∧ exec (.interp3d x y nx ny xbase ybase zbase) s =
        .next (answered s (BitVec.ofInt 32 (libLerp .wide x.toInt (X (i - 1)) (Z (i - 1) j) (X i) (Z i j))) none)

/-! ### Literals and the assembler -/

/-- R80: `lit_k` is the rounding of `r · 2^k` that `LIT_ROUND` selects, refused where it does not fit in 32 bits. -/
def Obligations.LiteralsRoundAsBuilt : Prop :=
  ∀ (round : LitRound) (k : Nat) (r : Rat), ∃ n : Int, RoundsTo round (r * 2 ^ k) n ∧
    literal round k r = if -2 ^ 31 ≤ n ∧ n ≤ 2 ^ 31 - 1 then .ok n else .error (.literalRange r)

/-- R69, R70, R71: an assembled line issues the command of its mnemonic and formats, its slots filled as its operands say;
whatever words these turn out to be, the line's binary form decodes to that command. Every line of the form of R69 whose
operands name a slot's content assembles. -/
def Obligations.AssembledLinesDecode : Prop :=
  ∀ (cfg : Cfg) (labels : List AsmLabel) (line : AsmLine), cfg.fracBits ≤ 30 →
    (∀ move, assembleLine cfg labels line = .ok move →
      ∃ cmd operands, move = .issue cmd operands ∧
        List.Forall₂ (FillsSlot cfg labels) (slotOperands line) operands ∧
        ∀ ws : List Word, ws.length = operands.length →
          ∃ i : Instr, LineMeans cfg line ws i ∧ i.wellFormed = true ∧ encode i = cmd :: ws ∧
            decode (Command.ofWords (cmd :: ws)) = .ok i) ∧
    ∀ (operands : List Source) (ws : List Word) (i : Instr), LineMeans cfg line ws i →
      List.Forall₂ (FillsSlot cfg labels) (slotOperands line) operands →
      ∃ cmd, assembleLine cfg labels line = .ok (.issue cmd operands)

/-- R71: TOF and FROMF expand to CONV. -/
def Obligations.PseudoInstructionsExpand : Prop :=
  ∀ (cfg : Cfg) (labels : List AsmLabel) (label : Option (List Char)) (k : AsmOperand) (v : List AsmOperand),
    cfg.fracBits ≤ 30 →
    assembleLine cfg labels ⟨label, .tof, k :: v⟩ =
      assembleLine cfg labels ⟨label, .conv, k :: .decimal cfg.fracBits :: v⟩ ∧
    assembleLine cfg labels ⟨label, .fromf, k :: v⟩ =
      assembleLine cfg labels ⟨label, .conv, .decimal cfg.fracBits :: k :: v⟩
end

