-- ==== Sys2Proof/Laws/Arith.lean ====
section
/-! SUPPORT. What the numeric primitives of R9 to R11 compute, in terms of the library's bounded modulus and integer
divisions: the lemmas later proofs cite instead of unfolding a primitive. -/

namespace Sys2Proof.Machine

theorem wrap32_eq_bmod (n : Int) : wrap32 n = n.bmod (2 ^ 32) := by
  rw [wrap32, Int.bmod_def]
  split <;> omega

theorem wrap16_eq_bmod (n : Int) : wrap16 n = n.bmod (2 ^ 16) := by
  rw [wrap16, Int.bmod_def]
  split <;> omega

theorem wrap32_bounds (n : Int) : -2 ^ 31 ≤ wrap32 n ∧ wrap32 n ≤ 2 ^ 31 - 1 := by
  unfold wrap32
  omega

theorem wrap32_of_inRange {n : Int} (lo : -2 ^ 31 ≤ n) (hi : n ≤ 2 ^ 31 - 1) : wrap32 n = n := by
  unfold wrap32
  omega

theorem sint32_bounds (w : Word) : -2 ^ 31 ≤ sint32 w ∧ sint32 w ≤ 2 ^ 31 - 1 := by
  unfold sint32
  have := BitVec.toInt_lt (x := w)
  have := BitVec.le_toInt (x := w)
  omega

@[simp] theorem word_sint32 (w : Word) : word (sint32 w) = w := by
  simp [word, sint32]

theorem sint32_word (n : Int) : sint32 (word n) = wrap32 n := by
  rw [wrap32_eq_bmod, sint32, word, BitVec.toInt_ofInt]

@[simp] theorem word_wrap32 (n : Int) : word (wrap32 n) = word n := by
  rw [← sint32_word, word_sint32]

theorem sint32_eq_zero_iff (w : Word) : sint32 w = 0 ↔ w = 0 := by
  constructor
  · intro h
    rw [← word_sint32 w, h]
    rfl
  · rintro rfl
    rfl

theorem tdiv_eq (a b : Int) : tdiv a b = Int.tdiv a b := by
  unfold tdiv
  rcases Int.natAbs_eq a with h | h <;> rcases Int.natAbs_eq b with h' | h' <;> rw [h, h'] <;>
    generalize a.natAbs = x <;> generalize b.natAbs = y <;>
    rcases Nat.eq_zero_or_pos x with rfl | hx <;> rcases Nat.eq_zero_or_pos y with rfl | hy <;>
    simp [Int.neg_tdiv, Int.tdiv_neg, Int.sign_eq_one_of_pos, *]

theorem shr0_eq_tdiv (v : Int) (n : Nat) : shr0 v n = Int.tdiv v (2 ^ n) := by
  rw [← tdiv_eq, tdiv, shr0]
  have h : (2 ^ n : Int).natAbs = 2 ^ n := by simp [Int.natAbs_pow]
  have pos : (0 : Int) < 2 ^ n := by positivity
  rw [h, Int.sign_eq_one_of_pos pos, mul_one]

end Sys2Proof.Machine
end

