-- ==== Sys2Proof/Laws/Decode.lean ====
section
/-! SUPPORT. The fields of a command word as numbers, what the encoder's command word puts into each field, and that a
word whose reserved fields are zero is the word of its fields: what proofs about decode and encode cite. -/

namespace Sys2Proof

theorem toNat_append_eq {n m : Nat} (x : BitVec n) (y : BitVec m) :
    (x ++ y).toNat = x.toNat * 2 ^ m + y.toNat := by
  rw [BitVec.toNat_append, ← Nat.shiftLeft_add_eq_or_of_lt y.isLt, Nat.shiftLeft_eq]

theorem commandWord_toNat (fd fs : BitVec 5) (opc : BitVec 8) :
    (commandWord fd fs opc).toNat = opc.toNat + 2 ^ 8 * fs.toNat + 2 ^ 16 * fd.toNat := by
  have h := toNat_append_eq (0#11 ++ fd ++ 0#3 ++ fs) opc
  have e : (commandWord fd fs opc).toNat = (0#11 ++ fd ++ 0#3 ++ fs ++ opc).toNat := rfl
  rw [e, h, toNat_append_eq, toNat_append_eq, toNat_append_eq]
  simp only [BitVec.toNat_ofNat]
  omega

theorem opcField_toNat (w : Word) : (opcField w).toNat = w.toNat % 2 ^ 8 := by
  simp [opcField, BitVec.extractLsb'_toNat]

theorem fsField_toNat (w : Word) : (fsField w).toNat = w.toNat / 2 ^ 8 % 2 ^ 5 := by
  simp [fsField, BitVec.extractLsb'_toNat, Nat.shiftRight_eq_div_pow]

theorem rsv1Field_toNat (w : Word) : (rsv1Field w).toNat = w.toNat / 2 ^ 13 % 2 ^ 3 := by
  simp [rsv1Field, BitVec.extractLsb'_toNat, Nat.shiftRight_eq_div_pow]

theorem fdField_toNat (w : Word) : (fdField w).toNat = w.toNat / 2 ^ 16 % 2 ^ 5 := by
  simp [fdField, BitVec.extractLsb'_toNat, Nat.shiftRight_eq_div_pow]

theorem rsv2Field_toNat (w : Word) : (rsv2Field w).toNat = w.toNat / 2 ^ 21 % 2 ^ 11 := by
  simp [rsv2Field, BitVec.extractLsb'_toNat, Nat.shiftRight_eq_div_pow]

@[simp] theorem opcField_commandWord (fd fs : BitVec 5) (opc : BitVec 8) :
    opcField (commandWord fd fs opc) = opc := by
  apply BitVec.eq_of_toNat_eq
  rw [opcField_toNat, commandWord_toNat]
  omega

@[simp] theorem fsField_commandWord (fd fs : BitVec 5) (opc : BitVec 8) :
    fsField (commandWord fd fs opc) = fs := by
  apply BitVec.eq_of_toNat_eq
  rw [fsField_toNat, commandWord_toNat]
  omega

@[simp] theorem fdField_commandWord (fd fs : BitVec 5) (opc : BitVec 8) :
    fdField (commandWord fd fs opc) = fd := by
  apply BitVec.eq_of_toNat_eq
  rw [fdField_toNat, commandWord_toNat]
  omega

@[simp] theorem rsv1Field_commandWord (fd fs : BitVec 5) (opc : BitVec 8) :
    rsv1Field (commandWord fd fs opc) = 0 := by
  apply BitVec.eq_of_toNat_eq
  rw [rsv1Field_toNat, commandWord_toNat]
  change _ = 0
  omega

@[simp] theorem rsv2Field_commandWord (fd fs : BitVec 5) (opc : BitVec 8) :
    rsv2Field (commandWord fd fs opc) = 0 := by
  apply BitVec.eq_of_toNat_eq
  rw [rsv2Field_toNat, commandWord_toNat]
  change _ = 0
  omega

/-- A word whose reserved fields are zero is the word of its fields. -/

theorem commandWord_fields {w : Word} (h1 : rsv1Field w = 0) (h2 : rsv2Field w = 0) :
    commandWord (fdField w) (fsField w) (opcField w) = w := by
  apply BitVec.eq_of_toNat_eq
  have e1 : (rsv1Field w).toNat = 0 := by rw [h1]; rfl
  have e2 : (rsv2Field w).toNat = 0 := by rw [h2]; rfl
  rw [rsv1Field_toNat] at e1
  rw [rsv2Field_toNat] at e2
  rw [commandWord_toNat, opcField_toNat, fsField_toNat, fdField_toNat]
  have := w.isLt
  omega

end Sys2Proof
end

