-- ==== Sys2Proof/Laws/State.lean ====
section
/-! SUPPORT. One lemma per field per update of State, and what the updates leave of the reads through memory and the
ROMs, so that no later proof unfolds a record update. -/

namespace Sys2Proof.Machine

/-! ### `State.answer` -/

@[simp] theorem State.answer_phase (s : State) (r : Response) : (s.answer r).phase = .idle := rfl

@[simp] theorem State.answer_stop (s : State) (r : Response) : (s.answer r).stop = s.stop := rfl

@[simp] theorem State.answer_responses (s : State) (r : Response) : (s.answer r).responses = s.responses ++ [r] := rfl

@[simp] theorem State.answer_unanswered (s : State) (r : Response) : (s.answer r).unanswered = false := rfl

@[simp] theorem State.answer_faultRecord (s : State) (r : Response) : (s.answer r).faultRecord = s.faultRecord := rfl

@[simp] theorem State.answer_refusals (s : State) (r : Response) : (s.answer r).refusals = s.refusals := rfl

@[simp] theorem State.answer_memory (s : State) (r : Response) : (s.answer r).memory = s.memory := rfl

@[simp] theorem State.answer_admitted (s : State) (r : Response) : (s.answer r).admitted = s.admitted := rfl

@[simp] theorem State.answer_cfg (s : State) (r : Response) : (s.answer r).cfg = s.cfg := rfl

@[simp] theorem State.answer_script (s : State) (r : Response) : (s.answer r).script = s.script := rfl

@[simp] theorem State.answer_byteAt (s : State) (r : Response) (addr : Nat) : (s.answer r).byteAt addr = s.byteAt addr := rfl

@[simp] theorem State.answer_memRead (s : State) (r : Response) (addr : Nat) : (s.answer r).memRead addr = s.memRead addr := rfl

/-! ### `State.fail` -/

@[simp] theorem State.fail_phase (s : State) (f : CommandFault) : (s.fail f).phase = s.phase := rfl

@[simp] theorem State.fail_stop (s : State) (f : CommandFault) : (s.fail f).stop = some (.fault f) := rfl

@[simp] theorem State.fail_responses (s : State) (f : CommandFault) : (s.fail f).responses = s.responses := rfl

@[simp] theorem State.fail_unanswered (s : State) (f : CommandFault) : (s.fail f).unanswered = s.unanswered := rfl

@[simp] theorem State.fail_faultRecord (s : State) (f : CommandFault) : (s.fail f).faultRecord = s.faultRecord ++ [f] := rfl

@[simp] theorem State.fail_refusals (s : State) (f : CommandFault) : (s.fail f).refusals = s.refusals := rfl

@[simp] theorem State.fail_memory (s : State) (f : CommandFault) : (s.fail f).memory = s.memory := rfl

@[simp] theorem State.fail_admitted (s : State) (f : CommandFault) : (s.fail f).admitted = s.admitted := rfl

@[simp] theorem State.fail_cfg (s : State) (f : CommandFault) : (s.fail f).cfg = s.cfg := rfl

@[simp] theorem State.fail_script (s : State) (f : CommandFault) : (s.fail f).script = s.script := rfl

@[simp] theorem State.fail_byteAt (s : State) (f : CommandFault) (addr : Nat) : (s.fail f).byteAt addr = s.byteAt addr := rfl

@[simp] theorem State.fail_memRead (s : State) (f : CommandFault) (addr : Nat) : (s.fail f).memRead addr = s.memRead addr := rfl

/-! ### `State.refuse` -/

@[simp] theorem State.refuse_phase (s : State) (cmd : Word) : (s.refuse cmd).phase = s.phase := rfl

@[simp] theorem State.refuse_stop (s : State) (cmd : Word) : (s.refuse cmd).stop = some (.refusal cmd) := rfl

@[simp] theorem State.refuse_responses (s : State) (cmd : Word) : (s.refuse cmd).responses = s.responses := rfl

@[simp] theorem State.refuse_unanswered (s : State) (cmd : Word) : (s.refuse cmd).unanswered = s.unanswered := rfl

@[simp] theorem State.refuse_faultRecord (s : State) (cmd : Word) : (s.refuse cmd).faultRecord = s.faultRecord := rfl

@[simp] theorem State.refuse_refusals (s : State) (cmd : Word) : (s.refuse cmd).refusals = s.refusals ++ [cmd] := rfl

@[simp] theorem State.refuse_memory (s : State) (cmd : Word) : (s.refuse cmd).memory = s.memory := rfl

@[simp] theorem State.refuse_admitted (s : State) (cmd : Word) : (s.refuse cmd).admitted = s.admitted := rfl

@[simp] theorem State.refuse_cfg (s : State) (cmd : Word) : (s.refuse cmd).cfg = s.cfg := rfl

@[simp] theorem State.refuse_script (s : State) (cmd : Word) : (s.refuse cmd).script = s.script := rfl

@[simp] theorem State.refuse_byteAt (s : State) (cmd : Word) (addr : Nat) : (s.refuse cmd).byteAt addr = s.byteAt addr := rfl

@[simp] theorem State.refuse_memRead (s : State) (cmd : Word) (addr : Nat) : (s.refuse cmd).memRead addr = s.memRead addr := rfl

/-! ### `State.assertReset` -/

@[simp] theorem State.assertReset_phase (s : State) : (s.assertReset).phase = .idle := rfl

@[simp] theorem State.assertReset_stop (s : State) : (s.assertReset).stop = none := rfl

@[simp] theorem State.assertReset_responses (s : State) : (s.assertReset).responses = s.responses := rfl

@[simp] theorem State.assertReset_unanswered (s : State) : (s.assertReset).unanswered = s.unanswered := rfl

@[simp] theorem State.assertReset_faultRecord (s : State) : (s.assertReset).faultRecord = s.faultRecord := rfl

@[simp] theorem State.assertReset_refusals (s : State) : (s.assertReset).refusals = s.refusals := rfl

@[simp] theorem State.assertReset_memory (s : State) : (s.assertReset).memory = s.memory := rfl

@[simp] theorem State.assertReset_admitted (s : State) : (s.assertReset).admitted = s.admitted := rfl

@[simp] theorem State.assertReset_cfg (s : State) : (s.assertReset).cfg = s.cfg := rfl

@[simp] theorem State.assertReset_script (s : State) : (s.assertReset).script = s.script := rfl

@[simp] theorem State.assertReset_byteAt (s : State) (addr : Nat) : (s.assertReset).byteAt addr = s.byteAt addr := rfl

@[simp] theorem State.assertReset_memRead (s : State) (addr : Nat) : (s.assertReset).memRead addr = s.memRead addr := rfl

/-! ### `State.accept` -/

@[simp] theorem State.accept_phase (s : State) (c : Command) : (s.accept c).phase = .busy c := rfl

@[simp] theorem State.accept_stop (s : State) (c : Command) : (s.accept c).stop = s.stop := rfl

@[simp] theorem State.accept_responses (s : State) (c : Command) : (s.accept c).responses = s.responses := rfl

@[simp] theorem State.accept_unanswered (s : State) (c : Command) : (s.accept c).unanswered = true := rfl

@[simp] theorem State.accept_faultRecord (s : State) (c : Command) : (s.accept c).faultRecord = s.faultRecord := rfl

@[simp] theorem State.accept_refusals (s : State) (c : Command) : (s.accept c).refusals = s.refusals := rfl

@[simp] theorem State.accept_memory (s : State) (c : Command) : (s.accept c).memory = s.memory := rfl

@[simp] theorem State.accept_admitted (s : State) (c : Command) : (s.accept c).admitted = s.admitted := rfl

@[simp] theorem State.accept_cfg (s : State) (c : Command) : (s.accept c).cfg = s.cfg := rfl

@[simp] theorem State.accept_script (s : State) (c : Command) : (s.accept c).script = s.script := rfl

@[simp] theorem State.accept_byteAt (s : State) (c : Command) (addr : Nat) : (s.accept c).byteAt addr = s.byteAt addr := rfl

@[simp] theorem State.accept_memRead (s : State) (c : Command) (addr : Nat) : (s.accept c).memRead addr = s.memRead addr := rfl

/-! ### The script and table memory -/

@[simp] theorem State.byteAt_withScript (s : State) (moves : List HostMove) (addr : Nat) :
    { s with script := moves }.byteAt addr = s.byteAt addr := rfl

@[simp] theorem State.memRead_withScript (s : State) (moves : List HostMove) (addr : Nat) :
    { s with script := moves }.memRead addr = s.memRead addr := rfl

end Sys2Proof.Machine
end

