-- ==== Sys2Proof/Laws/Tables.lean ====
section
/-! SUPPORT. One spec lemma per table read (R43, R47): what a successful read says of every word, and which read a
failing one reports. -/

namespace Sys2Proof.Machine

/-- A run of words is read exactly when each of its words is. -/
theorem State.readWords_eq_ok_iff (s : State) (addr n : Nat) (vs : List Int) :
    s.readWords addr n = .ok vs ↔
      vs.length = n ∧ ∀ k, (h : k < vs.length) → s.memRead (addr + 4 * k) = .ok vs[k] := by
  induction n generalizing addr vs with
  | zero =>
    cases vs with
    | nil => simp [State.readWords]
    | cons v vs => simp [State.readWords]
  | succ n ih =>
    cases vs with
    | nil =>
      simp only [State.readWords]
      split
      · simp
      · split <;> simp
    | cons v vs =>
      have step : (∀ k, (h : k < (v :: vs).length) → s.memRead (addr + 4 * k) = .ok (v :: vs)[k]) ↔
          s.memRead addr = .ok v ∧ ∀ k, (h : k < vs.length) → s.memRead (addr + 4 + 4 * k) = .ok vs[k] := by
        constructor
        · refine fun h => ⟨h 0 (by simp), fun k hk => ?_⟩
          have := h (k + 1) (by simpa using hk)
          rwa [show addr + 4 * (k + 1) = addr + 4 + 4 * k by omega] at this
        · rintro ⟨h0, h⟩ (_ | k) hk
          · simpa using h0
          · rw [show addr + 4 * (k + 1) = addr + 4 + 4 * k by omega]
            exact h k (by simpa using hk)
      rw [step]
      have rest := ih (addr + 4) vs
      simp only [State.readWords, List.length_cons, Nat.add_right_cancel_iff]
      cases hv : s.memRead addr with
      | error e => simp
      | ok w =>
        cases hr : s.readWords (addr + 4) n with
        | error e => simp [hr] at rest ⊢; tauto
        | ok ws => simp [hr] at rest ⊢; tauto

/-- A failing run of words reports the first word that cannot be read. -/
theorem State.readWords_eq_error_iff (s : State) (addr n : Nat) (e : AccessFault) :
    s.readWords addr n = .error e ↔
      ∃ k < n, (∀ j < k, ∃ v, s.memRead (addr + 4 * j) = .ok v) ∧ s.memRead (addr + 4 * k) = .error e := by
  induction n generalizing addr with
  | zero => simp [State.readWords]
  | succ n ih =>
    simp only [State.readWords]
    cases hv : s.memRead addr with
    | error e' =>
      constructor
      · intro h
        exact ⟨0, by omega, by simp, by simpa [hv] using h⟩
      · rintro ⟨k, _, before, at_k⟩
        cases k with
        | zero => simpa [hv] using at_k
        | succ k =>
          obtain ⟨v, h⟩ := before 0 (by omega)
          simp [hv] at h
    | ok v =>
      have rest := ih (addr + 4)
      have shift : (∃ k < n, (∀ j < k, ∃ v, s.memRead (addr + 4 + 4 * j) = .ok v) ∧
            s.memRead (addr + 4 + 4 * k) = .error e) ↔
          ∃ k < n + 1, (∀ j < k, ∃ v, s.memRead (addr + 4 * j) = .ok v) ∧ s.memRead (addr + 4 * k) = .error e := by
        constructor
        · rintro ⟨k, hk, before, at_k⟩
          refine ⟨k + 1, by omega, fun j hj => ?_, by rwa [show addr + 4 * (k + 1) = addr + 4 + 4 * k by omega]⟩
          cases j with
          | zero => exact ⟨v, by simpa using hv⟩
          | succ j => rw [show addr + 4 * (j + 1) = addr + 4 + 4 * j by omega]; exact before j (by omega)
        · rintro ⟨k, hk, before, at_k⟩
          cases k with
          | zero => simp [hv] at at_k
          | succ k =>
            refine ⟨k, by omega, fun j hj => ?_, by rwa [show addr + 4 * (k + 1) = addr + 4 + 4 * k by omega] at at_k⟩
            have := before (j + 1) (by omega)
            rwa [show addr + 4 * (j + 1) = addr + 4 + 4 * j by omega] at this
      rw [← shift, ← rest]
      cases s.readWords (addr + 4) n with
      | error e' => simp
      | ok vs => simp

/-- The points of a 2-D table are its words, two by two. -/
theorem State.readPoints_eq (s : State) (base n : Nat) :
    s.readPoints base n =
      match s.readWords base (2 * n) with
      | .error e => .error e
      | .ok ws => .ok ((List.range n).map fun k => (ws.getD (2 * k) 0, ws.getD (2 * k + 1) 0)) := by
  induction n generalizing base with
  | zero => simp [State.readPoints, State.readWords]
  | succ n ih =>
    rw [show 2 * (n + 1) = 2 * n + 1 + 1 by ring]
    simp only [State.readPoints, State.readWords, ih]
    cases s.memRead base with
    | error e => rfl
    | ok x =>
      cases s.memRead (base + 4) with
      | error e => rfl
      | ok y =>
        rw [show base + 4 + 4 = base + 8 by omega]
        cases s.readWords (base + 8) (2 * n) with
        | error e => rfl
        | ok ws =>
          simp only [List.range_succ_eq_map, List.map_cons, List.map_map]
          rfl

/-- A table is read exactly when each of its points is. -/
theorem State.readPoints_eq_ok_iff (s : State) (base n : Nat) (ps : List (Int × Int)) :
    s.readPoints base n = .ok ps ↔
      ps.length = n ∧ ∀ k, (h : k < ps.length) →
        s.memRead (base + 8 * k) = .ok ps[k].1 ∧ s.memRead (base + 8 * k + 4) = .ok ps[k].2 := by
  induction n generalizing base ps with
  | zero =>
    cases ps with
    | nil => simp [State.readPoints]
    | cons v vs => simp [State.readPoints]
  | succ n ih =>
    cases ps with
    | nil =>
      simp only [State.readPoints]
      split
      · simp
      · split
        · simp
        · split <;> simp
    | cons p ps =>
      have step : (∀ k, (h : k < (p :: ps).length) →
            s.memRead (base + 8 * k) = .ok (p :: ps)[k].1 ∧ s.memRead (base + 8 * k + 4) = .ok (p :: ps)[k].2) ↔
          (s.memRead base = .ok p.1 ∧ s.memRead (base + 4) = .ok p.2) ∧
            ∀ k, (h : k < ps.length) →
              s.memRead (base + 8 + 8 * k) = .ok ps[k].1 ∧ s.memRead (base + 8 + 8 * k + 4) = .ok ps[k].2 := by
        constructor
        · refine fun h => ⟨h 0 (by simp), fun k hk => ?_⟩
          have := h (k + 1) (by simpa using hk)
          rwa [show base + 8 * (k + 1) = base + 8 + 8 * k by omega] at this
        · rintro ⟨h0, h⟩ (_ | k) hk
          · simpa using h0
          · rw [show base + 8 * (k + 1) = base + 8 + 8 * k by omega]
            exact h k (by simpa using hk)
      rw [step]
      have rest := ih (base + 8) ps
      simp only [State.readPoints, List.length_cons, Nat.add_right_cancel_iff]
      obtain ⟨px, py⟩ := p
      cases hx : s.memRead base with
      | error e => simp
      | ok x =>
        cases hy : s.memRead (base + 4) with
        | error e => simp
        | ok y =>
          cases hr : s.readPoints (base + 8) n with
          | error e => simp [hr] at rest ⊢; tauto
          | ok qs => simp [hr] at rest ⊢; tauto

/-- The order check says what it names. -/
theorem ascending_iff_pairwise (v : List Int) : ascending v = true ↔ v.Pairwise (· < ·) := by
  induction v with
  | nil => simp [ascending]
  | cons a rest ih =>
    cases rest with
    | nil => simp [ascending]
    | cons b rest =>
      simp only [ascending, Bool.and_eq_true, decide_eq_true_eq, ih, List.pairwise_cons]
      constructor
      · rintro ⟨lt, first, others⟩
        refine ⟨fun x hx => ?_, first, others⟩
        rcases List.mem_cons.1 hx with rfl | hx
        · exact lt
        · exact lt.trans (first x hx)
      · rintro ⟨all, first, others⟩
        exact ⟨all b (List.mem_cons_self ..), first, others⟩

end Sys2Proof.Machine
end

