-- ==== Sys2Proof/Laws/Exec.lean ====
section
/-! SUPPORT. Everything a meaning can do, said once: it answers, or it raises a fault that records its command. -/

namespace Sys2Proof.Machine

/-- The two ends of a command that was decoded (R190): the state after a response, or after a fault. -/
theorem exec_answers_or_fails (i : Instr) (s : State) :
    (∃ r, exec i s = .next (s.answer r)) ∨ ∃ f, exec i s = .next (s.fail f) ∧ f.command = encode i := by
  cases i with
  | conv fs fd v => exact .inl ⟨_, rfl⟩
  | fmul a b => exact .inl ⟨_, rfl⟩
  | fdiv a b =>
    simp only [exec, execFdiv]
    split
    · exact .inr ⟨_, rfl, rfl⟩
    · exact .inl ⟨_, rfl⟩
  | fabs a => exact .inl ⟨_, rfl⟩
  | sin angle => exact .inl ⟨_, rfl⟩
  | cos angle => exact .inl ⟨_, rfl⟩
  | cart2pol re im =>
    simp only [exec, execCart2pol]
    split <;> exact .inl ⟨_, rfl⟩
  | clarke a b c => exact .inl ⟨_, rfl⟩
  | isqrt n => exact .inl ⟨_, rfl⟩
  | interp2d x n base =>
    simp only [exec, execInterp2d]
    split
    · exact .inr ⟨_, rfl, rfl⟩
    · split
      · exact .inr ⟨_, rfl, rfl⟩
      · split
        · exact .inr ⟨_, rfl, rfl⟩
        · exact .inl ⟨_, rfl⟩
  | interp3d x y nx ny xbase ybase zbase =>
    simp only [exec, execInterp3d]
    split
    · exact .inr ⟨_, rfl, rfl⟩
    · split
      · exact .inr ⟨_, rfl, rfl⟩
      · split
        · exact .inr ⟨_, rfl, rfl⟩
        · exact .inl ⟨_, rfl⟩

end Sys2Proof.Machine
end

