-- ==== Sys2Proof/Laws/Memory.lean ====
section
/-! SUPPORT. Table memory: a read after a write, and every operation keeps the canonical form. -/

namespace Sys2Proof.Machine

theorem Memory.read_write_same (m : Memory) (addr : Nat) (b : Byte) :
    Memory.read (Memory.write m addr b) addr = some b := by
  induction m with
  | nil => simp [Memory.write, Memory.read]
  | cons x rest ih =>
    obtain ⟨k, v⟩ := x
    simp only [Memory.write]
    split
    · simp [Memory.read]
    · split
      · simp [Memory.read]
      · have : k ≠ addr := by omega
        simp [Memory.read, this, ih]

theorem Memory.read_write_other (m : Memory) {addr a : Nat} (b : Byte) (h : a ≠ addr) :
    Memory.read (Memory.write m addr b) a = Memory.read m a := by
  induction m with
  | nil => simp [Memory.write, Memory.read, h.symm]
  | cons x rest ih =>
    obtain ⟨k, v⟩ := x
    simp only [Memory.write]
    split
    · simp [Memory.read, h.symm]
    · split
      · rename_i _ heq
        subst heq
        simp [Memory.read, h.symm]
      · simp only [Memory.read, ih]

/-- Every entry of a written memory is the new one or an old one. -/
theorem Memory.mem_write {m : Memory} {addr : Nat} {b : Byte} {x : Host.Cell} (h : x ∈ Memory.write m addr b) :
    x = (addr, b) ∨ x ∈ m := by
  induction m with
  | nil => simpa [Memory.write] using h
  | cons y rest ih =>
    obtain ⟨k, v⟩ := y
    simp only [Memory.write] at h
    split at h
    · simpa using h
    · split at h
      · rcases List.mem_cons.1 h with h | h
        · exact .inl h
        · exact .inr (List.mem_cons_of_mem _ h)
      · rcases List.mem_cons.1 h with h | h
        · exact .inr (h ▸ List.mem_cons_self ..)
        · exact (ih h).imp_right (List.mem_cons_of_mem _)

theorem Memory.write_wf {m : Memory} (h : Memory.Wf m) {addr : Nat} (b : Byte) (ha : addr < memoryBytes) :
    Memory.Wf (Memory.write m addr b) := by
  obtain ⟨sorted, bound⟩ := h
  refine ⟨?_, fun x hx => ?_⟩
  · clear bound
    induction m with
    | nil => simp [Memory.write]
    | cons y rest ih =>
      obtain ⟨k, v⟩ := y
      obtain ⟨first, others⟩ := List.pairwise_cons.1 sorted
      simp only [Memory.write]
      split
      · rename_i lt
        refine List.pairwise_cons.2 ⟨fun x hx => ?_, sorted⟩
        rcases List.mem_cons.1 hx with rfl | hx
        · exact lt
        · exact lt.trans (first x hx)
      · split
        · rename_i _ heq
          exact List.pairwise_cons.2 ⟨fun x hx => heq ▸ first x hx, others⟩
        · refine List.pairwise_cons.2 ⟨fun x hx => ?_, ih others⟩
          rcases Memory.mem_write hx with rfl | hx
          · simp only
            omega
          · exact first x hx
  · rcases Memory.mem_write hx with rfl | hx
    · exact ha
    · exact bound x hx

theorem Memory.writeBytes_wf {m : Memory} (h : Memory.Wf m) {addr : Nat} (bs : List Byte)
    (ha : addr + bs.length ≤ memoryBytes) : Memory.Wf (Memory.writeBytes m addr bs) := by
  induction bs generalizing m addr with
  | nil => exact h
  | cons b rest ih =>
    simp only [List.length_cons] at ha
    exact ih (Memory.write_wf h b (by omega)) (by omega)

theorem Memory.read_writeBytes_outside (m : Memory) {addr a : Nat} (bs : List Byte)
    (h : a < addr ∨ addr + bs.length ≤ a) : Memory.read (Memory.writeBytes m addr bs) a = Memory.read m a := by
  induction bs generalizing m addr with
  | nil => rfl
  | cons b rest ih =>
    simp only [List.length_cons] at h
    rw [Memory.writeBytes, ih _ (by omega), Memory.read_write_other _ _ (by omega)]

theorem Memory.read_writeBytes_inside (m : Memory) {addr : Nat} (bs : List Byte) {k : Nat} (h : k < bs.length) :
    Memory.read (Memory.writeBytes m addr bs) (addr + k) = some bs[k] := by
  induction bs generalizing m addr k with
  | nil => simp at h
  | cons b rest ih =>
    rw [Memory.writeBytes]
    cases k with
    | zero => rw [Memory.read_writeBytes_outside _ _ (by omega)]; exact Memory.read_write_same ..
    | succ k =>
      have := ih (Memory.write m addr b) (addr := addr + 1) (k := k) (by simpa using h)
      rw [show addr + (k + 1) = addr + 1 + k by omega, this]
      rfl

/-- What the requester's write can do: it stores its bytes, or there is no such byte. -/
theorem State.hostWrite_cases (s : State) (width : WriteWidth) (addr value : Word) :
    (uint32 addr + (writeBytesOf width value).length ≤ memoryBytes ∧
      s.hostWrite width addr value =
        .next { s with memory := s.memory.writeBytes (uint32 addr) (writeBytesOf width value) }) ∨
    s.hostWrite width addr value = .fault (.noSuchByte memoryBytes) := by
  unfold State.hostWrite
  split
  · exact .inr rfl
  · exact .inl ⟨by omega, rfl⟩

end Sys2Proof.Machine
end

