-- ==== Sys2Proof/Laws/PerInstr.lean ====
section
/-! SUPPORT. Statements made per instruction. `EncodedLength`: the number of words a command takes is known from the low
byte of its command word alone (`30_encoding.md` R60), and its encoding is one command word and that many operand words. -/

namespace Sys2Proof.Laws.EncodedLength

/-- The words of `i` are a command word whose OPC byte gives the count of the operand words that follow. -/
def Statement (i : Instr) : Prop :=
  ∃ cmd operands, encode i = cmd :: operands ∧ operandCount (opcField cmd) = some operands.length

theorem conv (fs fd : BitVec 5) (v : Word) : Statement (.conv fs fd v) :=
  ⟨_, _, rfl, by rw [opcField_commandWord]; rfl⟩

theorem fmul (a b : Word) : Statement (.fmul a b) := ⟨_, _, rfl, by rw [opcField_commandWord]; rfl⟩

theorem fdiv (a b : Word) : Statement (.fdiv a b) := ⟨_, _, rfl, by rw [opcField_commandWord]; rfl⟩

theorem fabs (a : Word) : Statement (.fabs a) := ⟨_, _, rfl, by rw [opcField_commandWord]; rfl⟩

theorem sin (angle : Word) : Statement (.sin angle) := ⟨_, _, rfl, by rw [opcField_commandWord]; rfl⟩

theorem cos (angle : Word) : Statement (.cos angle) := ⟨_, _, rfl, by rw [opcField_commandWord]; rfl⟩

theorem cart2pol (re im : Word) : Statement (.cart2pol re im) := ⟨_, _, rfl, by rw [opcField_commandWord]; rfl⟩

theorem clarke (a b c : Word) : Statement (.clarke a b c) := ⟨_, _, rfl, by rw [opcField_commandWord]; rfl⟩

theorem isqrt (n : Word) : Statement (.isqrt n) := ⟨_, _, rfl, by rw [opcField_commandWord]; rfl⟩

theorem interp2d (x n base : Word) : Statement (.interp2d x n base) :=
  ⟨_, _, rfl, by rw [opcField_commandWord]; rfl⟩

theorem interp3d (x y nx ny xbase ybase zbase : Word) : Statement (.interp3d x y nx ny xbase ybase zbase) :=
  ⟨_, _, rfl, by rw [opcField_commandWord]; rfl⟩

end Sys2Proof.Laws.EncodedLength
end

