-- ==== Sys2Proof/Laws/Step.lean ====
section
/-! SUPPORT. Everything a step can do, said once, for every proof about a step to split on. -/

namespace Sys2Proof.Machine

/-- The steps of the machine that have a next state. -/
inductive StepCase (s t : State) : Prop where
  /-- An idle block with no move to wait for. -/
  | waits (running : s.stop = none) (idle : s.phase = .idle) (script : s.script = []) (next : t = s)
  /-- The requester issues a command. -/
  | issues (running : s.stop = none) (idle : s.phase = .idle) (cmd : Word) (operands : List Source)
      (rest : List HostMove) (script : s.script = .issue cmd operands :: rest) (ws : List Word)
      (gathered : State.gather { s with script := rest } operands = .ok ws)
      (next : t = State.accept { s with script := rest } (Command.ofWords (cmd :: ws)))
  /-- The requester moves past a wait, because no command is in flight: the block is stopped, or idle. -/
  | moves (ended : s.stop ≠ none ∨ s.phase = .idle) (rest : List HostMove) (script : s.script = .await :: rest)
      (next : t = { s with script := rest })
  /-- The requester writes table memory. -/
  | writes (width : WriteWidth) (addr value : Word) (rest : List HostMove) (script : s.script = .write width addr value :: rest)
      (fits : uint32 addr + (writeBytesOf width value).length ≤ memoryBytes)
      (apart : ∀ c, s.stop = none → s.phase = .busy c → writeTouches (commandExtents c) width addr = false)
      (next : t = { s with script := rest, memory := s.memory.writeBytes (uint32 addr) (writeBytesOf width value) })
  /-- The requester asserts reset. -/
  | resets (rest : List HostMove) (script : s.script = .reset :: rest)
      (next : t = State.assertReset { s with script := rest })
  /-- The block answers its command. -/
  | answers (running : s.stop = none) (c : Command) (busy : s.phase = .busy c) (i : Instr) (decoded : decode c = .ok i)
      (r : Response) (run : exec i s = .next (s.answer r)) (next : t = s.answer r)
  /-- The block faults on its command. -/
  | fails (running : s.stop = none) (c : Command) (busy : s.phase = .busy c) (i : Instr) (decoded : decode c = .ok i)
      (f : CommandFault) (run : exec i s = .next (s.fail f)) (records : f.command = encode i) (next : t = s.fail f)
  /-- The block refuses its command word. -/
  | refuses (running : s.stop = none) (c : Command) (busy : s.phase = .busy c) (e : DecodeError)
      (undecoded : decode c = .error e) (next : t = s.refuse c.cmd)

theorem State.hostWrite_next {s t : State} {width : WriteWidth} {addr value : Word}
    (h : s.hostWrite width addr value = .next t) :
    uint32 addr + (writeBytesOf width value).length ≤ memoryBytes ∧
      t = { s with memory := s.memory.writeBytes (uint32 addr) (writeBytesOf width value) } := by
  rcases s.hostWrite_cases width addr value with ⟨fits, e⟩ | e
  · rw [e] at h
    exact ⟨fits, (Host.Outcome.next.inj h).symm⟩
  · rw [e] at h
    cases h

theorem State.serve_next {s t : State} {c : Command} (running : s.stop = none) (busy : s.phase = .busy c)
    (h : s.serve c = .next t) : StepCase s t := by
  unfold State.serve at h
  split at h
  · rename_i i decoded
    rcases exec_answers_or_fails i s with ⟨r, e⟩ | ⟨f, e, records⟩
    · exact .answers running c busy i decoded r e (Host.Outcome.next.inj (h.symm.trans e))
    · exact .fails running c busy i decoded f e records (Host.Outcome.next.inj (h.symm.trans e))
  · rename_i e undecoded
    exact .refuses running c busy e undecoded (Host.Outcome.next.inj h).symm

theorem StopCause.stuck_ne_next (cause : StopCause) (t : State) : cause.stuck ≠ .next t := by
  cases cause <;> simp [StopCause.stuck]

/-- One inversion of `step` for all proofs. -/
theorem step_next_cases {s t : State} (h : step s = .next t) : StepCase s t := by
  unfold step at h
  split at h
  · rename_i cause stopped
    unfold State.stoppedStep at h
    split at h
    · exact absurd h (cause.stuck_ne_next t)
    · exact absurd h (cause.stuck_ne_next t)
    · rename_i width addr value rest script
      obtain ⟨fits, next⟩ := State.hostWrite_next h
      exact .writes width addr value rest script fits (fun c running => by simp [stopped] at running) next
    · rename_i rest script
      exact .resets rest script (Host.Outcome.next.inj h).symm
    · rename_i rest script
      exact .moves (.inl (by simp [stopped])) rest script (Host.Outcome.next.inj h).symm
  · rename_i running
    split at h
    · rename_i idle
      unfold State.idleStep at h
      split at h
      · rename_i script
        exact .waits running idle script (Host.Outcome.next.inj h).symm
      · rename_i cmd operands rest script
        unfold State.hostIssue at h
        split at h
        · cases h
        · rename_i ws gathered
          exact .issues running idle cmd operands rest script ws gathered (Host.Outcome.next.inj h).symm
      · rename_i width addr value rest script
        obtain ⟨fits, next⟩ := State.hostWrite_next h
        exact .writes width addr value rest script fits (fun c _ busy => by simp [idle] at busy) next
      · rename_i rest script
        exact .resets rest script (Host.Outcome.next.inj h).symm
      · rename_i rest script
        exact .moves (.inr idle) rest script (Host.Outcome.next.inj h).symm
    · rename_i c busy
      unfold State.busyStep at h
      split at h
      · exact State.serve_next running busy h
      · exact State.serve_next running busy h
      · rename_i width addr value rest script
        split at h
        · cases h
        · rename_i apart
          obtain ⟨fits, next⟩ := State.hostWrite_next h
          refine .writes width addr value rest script fits (fun c' _ busy' => ?_) next
          rw [busy] at busy'
          cases busy'
          simpa using apart
      · rename_i rest script
        exact .resets rest script (Host.Outcome.next.inj h).symm
      · exact State.serve_next running busy h

/-- An operand that has its word puts it in front of the words of the others. -/
theorem State.gather_cons (s : State) (x : Source) (rest : List Source) (w : Word)
    (h : match x with
      | .word v => v = w
      | .result response slot => s.result response slot = some w) :
    s.gather (x :: rest) = (s.gather rest).map (w :: ·) := by
  cases x with
  | word v =>
    cases h
    simp only [State.gather]
    split <;> simp_all [Except.map]
  | result response slot =>
    simp only at h
    simp only [State.gather, h]
    split <;> simp_all [Except.map]

/-- A copy of a word the requester never received stops the gathering. -/
theorem State.gather_missing (s : State) (response slot : Nat) (rest : List Source)
    (h : s.result response slot = none) :
    s.gather (.result response slot :: rest) = .error (.noSuchResult response slot) := by
  simp only [State.gather, h]

/-- The requester's write is one operation wherever it may be made: idle, stopped, or busy with other tables. -/
theorem step_write {s : State} {width : WriteWidth} {addr value : Word} {rest : List HostMove}
    (script : s.script = .write width addr value :: rest)
    (apart : ∀ c, s.stop = none → s.phase = .busy c → writeTouches (commandExtents c) width addr = false) :
    step s = State.hostWrite { s with script := rest } width addr value := by
  unfold step
  split
  · rw [State.stoppedStep, script]
  · rename_i running
    split
    · rw [State.idleStep, script]
    · rename_i c busy
      rw [State.busyStep, script]
      simp [apart c running busy]

end Sys2Proof.Machine
end

