-- ==== Sys2Proof/Tests/Slice0.lean ====
section
/-! SUPPORT. The model's own tests: the ill-formed terms WellFormed refuses, words written out from Table FMT and Table
OPC, one or two values a command from `95_test_vectors.md`, the steps around a command, and a witness for the hypotheses
of every obligation that has any. -/

namespace Sys2Proof.Tests

open Sys2Proof.Machine Sys2Proof.Claims

/-! ### Small states, and readings of an outcome -/

/-- The launch state with words of table memory written. -/
def withWords (ws : List (Nat × Word)) : State :=
  { State.reset with memory := ws.foldl (fun m p => m.writeBytes p.1 (writeBytesOf .word p.2)) [] }

/-- The launch state with some fields of the build changed. -/
def withCfg (f : Cfg → Cfg) : State := { State.reset with cfg := f Cfg.default }

/-- A state in which the block has accepted the command of these words. -/
def accepted (ws : List Word) (script : List HostMove) : State :=
  { State.reset with phase := .busy (Command.ofWords ws), unanswered := true, script := script }

/-- The state an outcome goes on to. -/
def ended (o : Outcome) : Option State :=
  match o with
  | .next t => some t
  | .fault _ => none
  | .refused _ => none

/-- The values of the last response, `R[0]` and `R[1]`. -/
def resp (o : Outcome) : Option (Int × Option Int) :=
  match ended o with
  | none => none
  | some t => t.responses.getLast?.map fun r => (r.r0.toInt, r.r1.map (·.toInt))

/-- The fault an outcome records last. -/
def recorded (o : Outcome) : Option CommandFault :=
  match ended o with
  | none => none
  | some t => t.faultRecord.getLast?

/-- The fault an outcome stops with. -/
def faultOf (o : Outcome) : Option Fault :=
  match o with
  | .next _ => none
  | .fault f => some f
  | .refused _ => none

/-- The refusal an outcome stops with. -/
def refusalOf (o : Outcome) : Option Refusal :=
  match o with
  | .next _ => none
  | .fault _ => none
  | .refused r => some r

/-! ### WellFormed -/

theorem test_wellFormed_conv_accepts_30 : (Instr.conv 30 30 0).wellFormed = true := by decide

theorem test_wellFormed_refuses_fs_31 : (Instr.conv 31 0 0).wellFormed = false := by decide

theorem test_wellFormed_refuses_fd_31 : (Instr.conv 0 31 0).wellFormed = false := by decide

/-! ### Words from Table FMT and Table OPC: RSV2, FD, RSV1, FS, OPC, bit by bit -/

theorem test_word_conv : decode (Command.ofWords [0b00000000000_01111_000_11110_00000001, 3]) = .ok (.conv 30 15 3) := by
  decide

theorem test_word_fmul : decode (Command.ofWords [0b00000000000_00000_000_00000_00000010, 1, 2]) = .ok (.fmul 1 2) := by
  decide

theorem test_word_fdiv : decode (Command.ofWords [0b00000000000_00000_000_00000_00000011, 1, 2]) = .ok (.fdiv 1 2) := by
  decide

theorem test_word_fabs : decode (Command.ofWords [0b00000000000_00000_000_00000_00000100, 1]) = .ok (.fabs 1) := by
  decide

theorem test_word_sin : decode (Command.ofWords [0b00000000000_00000_000_00000_00010000, 1]) = .ok (.sin 1) := by
  decide

theorem test_word_cos : decode (Command.ofWords [0b00000000000_00000_000_00000_00010001, 1]) = .ok (.cos 1) := by
  decide

theorem test_word_cart2pol :
    decode (Command.ofWords [0b00000000000_00000_000_00000_00100000, 1, 2]) = .ok (.cart2pol 1 2) := by decide

theorem test_word_clarke :
    decode (Command.ofWords [0b00000000000_00000_000_00000_00110000, 1, 2, 3]) = .ok (.clarke 1 2 3) := by decide

theorem test_word_isqrt : decode (Command.ofWords [0b00000000000_00000_000_00000_01000000, 1]) = .ok (.isqrt 1) := by
  decide

theorem test_word_interp2d :
    decode (Command.ofWords [0b00000000000_00000_000_00000_01010000, 1, 2, 3]) = .ok (.interp2d 1 2 3) := by decide

theorem test_word_interp3d :
    decode (Command.ofWords [0b00000000000_00000_000_00000_01100000, 1, 2, 3, 4, 5, 6, 7]) =
      .ok (.interp3d 1 2 3 4 5 6 7) := by decide

/-- The decoder refuses the word and names it. -/
def Refuses (w : Word) : Bool := decide (decode (Command.ofWords [w]) = .error (.reservedEncoding w))

/-- The refused words of `95_test_vectors.md` section 2. -/
theorem test_refused_words :
    (Refuses 0x00000000 && Refuses 0x00000005 && Refuses 0x00000012 && Refuses 0x00000061 && Refuses 0x000000FF &&
      Refuses 0x001F0001 && Refuses 0x00001F01 && Refuses 0x00200001 && Refuses 0x80000010 && Refuses 0x00002001 &&
      Refuses 0x0000E040 && Refuses 0x00000102 && Refuses 0x00010050 && Refuses 0xFFFFFFFF) = true := by decide

/-- R60: a second command stands after the operand words of the first. -/
theorem test_stream_of_two :
    decodeStream [0x000F0001, 3, 0x00000040, 25] = .ok (.conv 0 15 3, [0x00000040, 25]) := by decide

/-! ### Commands (`95_test_vectors.md` sections 3 to 12) -/

theorem test_conv_wraps : resp (exec (.conv 15 16 1073741824) State.reset) = some (-2147483648, none) := by decide

theorem test_conv_floor :
    resp (exec (.conv 15 0 (-98303)) (withCfg fun c => { c with shrRound := .floor })) = some (-3, none) := by decide

theorem test_fmul_wraps : resp (exec (.fmul 98304 (-49152)) State.reset) = some (-16384, none) := by decide

theorem test_fmul_wide :
    resp (exec (.fmul 98304 (-49152)) (withCfg fun c => { c with mulProduct := .wide })) = some (-147456, none) := by
  decide

theorem test_fdiv_truncates : resp (exec (.fdiv 32768 (-98304)) State.reset) = some (-10922, none) := by decide

theorem test_fdiv_zero : recorded (exec (.fdiv 5 0) State.reset) = some (.divideByZero [0x00000003, 5, 0]) := by decide

theorem test_fabs_negative : resp (exec (.fabs (-98304)) State.reset) = some (98304, none) := by decide

theorem test_fabs_most_negative : resp (exec (.fabs 0x80000000) State.reset) = some (-2147483648, none) := by decide

theorem test_sin_negative : resp (exec (.sin 0x0000BFFF) State.reset) = some (-32757, none) := by decide

theorem test_sin_ignores_high_half : resp (exec (.sin 0x7FFF0100) State.reset) = some (804, none) := by decide

theorem test_cos_wraps : resp (exec (.cos 0x0000FFFF) State.reset) = some (32757, none) := by decide

theorem test_cos_half_turn : resp (exec (.cos 0x00008000) State.reset) = some (-32767, none) := by decide

set_option maxRecDepth 4000 in
theorem test_cart2pol_quadrant3 :
    resp (exec (.cart2pol (-98304) (-131072)) State.reset) = some (163841, some (-23095)) := by decide

theorem test_cart2pol_floor :
    resp (exec (.cart2pol 0x80000000 0) (withCfg fun c => { c with shrRound := .floor })) =
      some (-275801577, some 8509) := by decide

theorem test_clarke_default : resp (exec (.clarke 32768 49152 0) State.reset) = some (32768, some (-55396)) := by decide

theorem test_clarke_wide :
    resp (exec (.clarke 1073741824 1073741824 0) (withCfg fun c => { c with mulProduct := .wide })) =
      some (1073741824, some (-619937792)) := by decide

theorem test_isqrt_below_a_square : resp (exec (.isqrt 0xFFFE0000) State.reset) = some (65534, none) := by decide

theorem test_isqrt_top : resp (exec (.isqrt 0xFFFFFFFF) State.reset) = some (65535, none) := by decide

/-- Program P2's table: (0,0), (10,100), (20,50). -/
def threePoints : State :=
  withWords [(0x20000000, 0), (0x20000004, 0), (0x20000008, 10), (0x2000000C, 100), (0x20000010, 20), (0x20000014, 50)]

theorem test_interp2d_above : resp (exec (.interp2d 25 3 0x20000000) threePoints) = some (25, none) := by decide

theorem test_interp2d_access :
    recorded (exec (.interp2d 5 4 0x20000000) threePoints) =
      some (.tableAccess [0x00000050, 5, 4, 0x20000000] ⟨0x20000018, .notAdmitted⟩) := by decide

/-- The 3 × 2 grid of program P3. -/
def grid32 : State :=
  withWords ([(0x20000100, 0), (0x20000104, 10), (0x20000108, 20), (0x20000110, 0), (0x20000114, 10)] ++
    [(0x20000120, 0), (0x20000124, 10), (0x20000128, 40), (0x2000012C, 100), (0x20000130, 110), (0x20000134, 140)])

theorem test_interp3d_inside :
    resp (exec (.interp3d 15 5 3 2 0x20000100 0x20000110 0x20000120) grid32) = some (75, none) := by decide

theorem test_interp3d_misaligned :
    recorded (exec (.interp3d 15 5 3 2 0x20000100 0x20000110 0x20000122) grid32) =
      some (.tableAccess [0x00000060, 15, 5, 3, 2, 0x20000100, 0x20000110, 0x20000122] ⟨0x20000122, .misaligned⟩) := by
  decide

/-! ### Steps -/

set_option maxRecDepth 8000 in
/-- The command after a response runs on the result word it copies: R69's `$c.1`, program P1 lines c and e. -/
theorem test_result_word_is_copied :
    resp (core.run 4 { State.reset with
      script := [.issue 0x20 [.word 0x00018000, .word 0x00020000], .issue 0x10 [.result 0 1]] }) =
      some (25832, none) := by decide

/-- R192: the step after a fault stops. -/
theorem test_stopped_after_fault :
    faultOf (core.run 2 (accepted [3, 5, 0] [])) = some (.stopped (.divideByZero [3, 5, 0])) := by decide

/-- R193: the step after a refusal is refused, and the mark holds the word. -/
theorem test_refused_after_refusal :
    refusalOf (core.run 2 (accepted [0x12] [])) = some (.reservedEncoding 0x12) ∧
    (ended (step (accepted [0x12] []))).map (·.refusals) = some [0x12] := by decide

/-- R210, R214: the requester sees the fault, asserts reset and issues the next command; the record keeps the fault. -/
theorem test_reset_returns :
    resp (core.run 6 { State.reset with
      script := [.issue 3 [.word 5, .word 0], .await, .reset, .issue 0x40 [.word 25]] }) = some (5, none) ∧
    recorded (core.run 6 { State.reset with
      script := [.issue 3 [.word 5, .word 0], .await, .reset, .issue 0x40 [.word 25]] }) =
        some (.divideByZero [3, 5, 0]) := by decide

/-- R210: a reset right after the issue drops the command, with no response and nothing recorded. -/
theorem test_reset_drops :
    (ended (core.run 3 { State.reset with script := [.issue 3 [.word 5, .word 0], .reset] })).map
      (fun t => (t.phase, t.responses, t.faultRecord, t.unanswered)) = some (.idle, [], [], true) := by decide

/-- S7: a command before a reset is stuck. -/
theorem test_command_before_reset :
    faultOf (core.run 4 { State.reset with
      script := [.issue 3 [.word 5, .word 0], .await, .issue 0x40 [.word 25]] }) =
        some (.stopped (.divideByZero [3, 5, 0])) := by decide

/-- R55: two halfwords make the word of R41's order. -/
theorem test_host_writes_are_little_endian :
    ((ended (core.run 2 { State.reset with script := [.write .half 8 0x1234, .write .half 10 0xFEDC] })).map
      fun t => t.memRead 8) = some (.ok (0xFEDC1234 - 0x100000000)) := by decide

/-- A command the host places runs first after reset. -/
theorem test_placed_command_runs :
    resp (step (State.reset.withFetchWord 96 0x000200000001800000000020)) = some (163841, some 9673) := by decide

/-! ### Builds, literals and the assembler -/

theorem legal_default : Cfg.default.legal = true := by decide +kernel

/-- R31: the default code of 1/√3 (`95_test_vectors.md` section 9's builds). -/
theorem test_invSqrt3 :
    literal .nearestAway 15 invSqrt3Literal = .ok 18919 ∧ literal .towardZero 15 invSqrt3Literal = .ok 18918 ∧
    literal .nearestAway 16 invSqrt3Literal = .ok 37837 := by decide +kernel

/-- R80: a literal that does not fit in 32 bits is refused. -/
theorem test_literal_range :
    literal .nearestAway 15 (mkRat 65536 1) = .error (.literalRange (mkRat 65536 1)) := by decide +kernel

/-- R6: `F` = 31 is not legal. -/
theorem test_illegal_build :
    State.launch { Cfg.default with fracBits := 31 } [] [] [] = .error (.illegalConfig .f) := by rfl

/-- Program P1, line c: the text assembles to the command that copies two results. -/
theorem test_assemble_text :
    parseLine "c: CART2POL $a, $b ; polar".toList = .ok ⟨some ['c'], .cart2pol, [.result ['a'] 0, .result ['b'] 0]⟩ ∧
    assembleLine Cfg.default [⟨['b'], 1, 1⟩, ⟨['a'], 0, 1⟩]
      ⟨some ['c'], .cart2pol, [.result ['a'] 0, .result ['b'] 0]⟩ =
        .ok (.issue 0x00000020 [.result 0 0, .result 1 0]) := by decide +kernel

/-- R71 at F = 15: `TOF 0, 3` is `CONV 0, 15, 3`. -/
theorem test_assemble_tof : assembleText Cfg.default "TOF 0, 3".toList = .ok (.issue 0x000F0001 [.word 3]) := by
  decide +kernel

/-- R69: a negative angle is its 32-bit word; a hexadecimal operand is its digits. -/
theorem test_assemble_operands :
    assembleText Cfg.default "SIN -16384".toList = .ok (.issue 0x00000010 [.word 0xFFFFC000]) ∧
    assembleText Cfg.default "ISQRT 0xFFFE0001".toList = .ok (.issue 0x00000040 [.word 0xFFFE0001]) ∧
    assembleText Cfg.default "FMUL .fx(-0.5), 1".toList = .ok (.issue 0x00000002 [.word 0xFFFFC000, .word 1]) := by
  decide +kernel

/-- R70: line c of program P1's listing, but for the padding of its columns. -/
theorem test_listing :
    listingLine ['c'] "CART2POL $a, $b".toList (.cart2pol 98304 131072) ⟨163841, some 9673⟩ =
      "c: CART2POL $a, $b   => CMD=0x00000020  A=[0x00018000, 0x00020000]  -> R=[163841, 9673]".toList := by
  decide +kernel

/-! ### Witnesses: for each obligation with hypotheses, operands and a state that meet them; where a statement has
clauses, one a clause, at the edge of its range -/

theorem launch_default : State.launch Cfg.default [] [] [] =
    .ok { State.reset with admitted := [], memory := [] } := by
  have h := legal_default
  simp only [Cfg.legal, Bool.and_eq_true] at h
  simp [State.launch, Cfg.build, h, State.reset]

theorem witness_StepRunsTheAcceptedCommand :
    ∀ script ∈ [[], [HostMove.issue 0 []], [HostMove.await]],
      (accepted [0x10, 16384] script).stop = none ∧
      (accepted [0x10, 16384] script).phase = .busy (Command.ofWords [0x10, 16384]) ∧
      HostWaits (accepted [0x10, 16384] script) ∧ decode (Command.ofWords [0x10, 16384]) = .ok (.sin 16384) := by
  intro script h
  refine ⟨rfl, rfl, ?_, by decide⟩
  simp only [List.mem_cons, List.not_mem_nil, or_false] at h
  obtain rfl | rfl | rfl := h
  · exact .inl rfl
  · exact .inr (.inl ⟨_, _, _, rfl⟩)
  · exact .inr (.inr ⟨_, rfl⟩)

theorem witness_PlacedCommandRunsNext : decodeTableWord 64 0x0000400000000010 = some (.sin 16384) := by decide

theorem witness_DecodeOfEncodedWords :
    (Instr.conv 30 30 7).wellFormed = true ∧ (Command.ofWords [0x001E1E01, 7]).words = encode (.conv 30 30 7) ∧
    (Command.ofWords [0x001E1E01, 7, 9]).words = encode (.conv 30 30 7) := by decide

theorem witness_DecodedCommandsEncodeBack : decode (Command.ofWords [0x001E1E01, 7]) = .ok (.conv 30 30 7) := by decide

/-- Each bullet of R66 has a word, and the largest formats of CONV have none. -/
theorem witness_ReservedWordsAreRefused :
    (0x00200001 : Word).toNat / 2 ^ 21 ≠ 0 ∧ (0x00002001 : Word).toNat / 2 ^ 13 % 2 ^ 3 ≠ 0 ∧
    ((0x001F0001 : Word).toNat % 2 ^ 8 = 1 ∧ (0x001F0001 : Word).toNat / 2 ^ 16 % 2 ^ 5 = 31) ∧
    ((0x00000102 : Word).toNat % 2 ^ 8 ≠ 1 ∧ (0x00000102 : Word).toNat / 2 ^ 8 % 2 ^ 5 ≠ 0) ∧
    (0x00000061 : Word).toNat % 2 ^ 8 ∉ [0x01, 0x02, 0x03, 0x04, 0x10, 0x11, 0x20, 0x30, 0x40, 0x50, 0x60] ∧
    ¬ ReservedWord 0x001E1E01 := by unfold ReservedWord; decide

theorem witness_ReservedWordsAreRefused_step :
    ReservedWord 0x00000012 ∧ (accepted [0x12] []).stop = none ∧
    (accepted [0x12] []).phase = .busy (Command.ofWords [0x12]) ∧ HostWaits (accepted [0x12] []) ∧
    decode (Command.ofWords [0x12]) = .error (.reservedEncoding 0x12) :=
  ⟨by unfold ReservedWord; decide, rfl, rfl, .inl rfl, by decide⟩

theorem witness_StreamOfWordsDecodes :
    (Instr.interp3d 1 2 3 4 5 6 7).wellFormed = true ∧ (Instr.conv 30 0 1).wellFormed = true := by decide

/-- A stopped block whose requester has no move, a command, a wait, a reset, a write. -/
theorem witness_StoppedBlockWaitsForReset :
    (State.reset.fail (.divideByZero [3, 5, 0])).stop = some (.fault (.divideByZero [3, 5, 0])) ∧
    OnlyIssues (State.reset.fail (.divideByZero [3, 5, 0])) ∧
    OnlyIssues { State.reset.refuse 0x12 with script := [.issue 0x40 [], .reset] } ∧
    ({ State.reset.refuse 0x12 with script := [.await, .reset] } : State).script = .await :: [.reset] ∧
    ({ State.reset.refuse 0x12 with script := [.reset] } : State).script = .reset :: [] ∧
    (∃ t, step { State.reset.refuse 0x12 with script := [.reset] } = .next t) ∧
    ∃ t, step { State.reset.refuse 0x12 with script := [.write .byte 7 1] } = .next t :=
  ⟨rfl, .inl rfl, .inr ⟨_, _, _, rfl⟩, rfl, rfl, ⟨_, rfl⟩, ⟨_, rfl⟩⟩

theorem witness_RecordsOnlyGrow :
    ∃ t, step (accepted [3, 5, 0] []) = .next t ∧ t.faultRecord = [.divideByZero [3, 5, 0]] := ⟨_, rfl, rfl⟩

theorem witness_BuildAndRomsNeverChange :
    (∃ t, step { State.reset with script := [.reset] } = .next t) ∧
    ∃ s, State.launch Cfg.default [] [] [] = .ok s := ⟨⟨_, rfl⟩, ⟨_, launch_default⟩⟩

theorem witness_AdmittedIsFixedInARun :
    (∃ t, step { State.reset with script := [.reset] } = .next t) ∧
    ∃ s, State.launch Cfg.default [] [] [] = .ok s := ⟨⟨_, rfl⟩, ⟨_, launch_default⟩⟩

/-- A step that leaves memory as it was, and one that writes the last word of the space. -/
theorem witness_OnlyTheRequesterWritesMemory :
    (∃ t, step (accepted [0x10, 0] []) = .next t ∧ t.memory.read 0xFFFFFFFF = none) ∧
    ∃ t, step { State.reset with script := [.write .word 0xFFFFFFFC 0x01020304] } = .next t ∧
      t.memory.read 0xFFFFFFFF = some 1 := ⟨⟨_, rfl, rfl⟩, ⟨_, rfl, by decide⟩⟩

/-- A response and a fault. -/
theorem witness_CommandsChangeOnlyTheInterface :
    (∃ t, exec (.isqrt 25) State.reset = .next t ∧ t.phase = .idle) ∧
    ∃ t, exec (.fdiv 5 0) State.reset = .next t ∧ t.stop = some (.fault (.divideByZero [3, 5, 0])) :=
  ⟨⟨_, rfl, rfl⟩, ⟨_, rfl, rfl⟩⟩

/-- A command that answers, one that faults and one that is refused. -/
theorem witness_EveryCommandEndsInOneStep :
    ∀ ws ∈ [[(0x40 : Word), 25], [3, 5, 0], [0x12]], (accepted ws []).stop = none ∧
      (accepted ws []).phase = .busy (Command.ofWords ws) ∧ HostWaits (accepted ws []) :=
  fun _ _ => ⟨rfl, rfl, .inl rfl⟩

theorem witness_CommandsAreAcceptedOnlyInIdle :
    ∃ t, step { State.reset with script := [.issue 0x40 [.word 25]] } = .next t ∧
      t.phase = .busy (Command.ofWords [0x40, 25]) ∧ State.reset.phase ≠ .busy (Command.ofWords [0x40, 25]) :=
  ⟨_, rfl, rfl, by decide⟩

/-- A reset of a stopped block with a command in flight. -/
theorem witness_ResetReturnsToIdle :
    ({ accepted [0x12] [] with stop := some (.refusal 0x12), script := [.reset, .await] } : State).script =
      .reset :: [.await] := rfl

/-- No move left, a wait, a reset, and a halfword that passes the end of the space. -/
theorem witness_FinalStatesWait :
    ∀ script ∈ [[], [HostMove.await], [.reset], [.write .half 0xFFFFFFFF 1]],
      State.Final { State.reset with script := script } ∧ ({ State.reset with script := script } : State).stop = none := by
  intro script h
  refine ⟨⟨?_, rfl, rfl, rfl, rfl⟩, rfl⟩
  simp only [List.mem_cons, List.not_mem_nil, or_false] at h
  obtain rfl | rfl | rfl | rfl := h
  all_goals decide

/-- A command still to issue: the run has not ended. -/
theorem test_final_needs_every_command : ¬ State.Final { State.reset with script := [.reset, .issue 0x40 []] } := by
  intro h
  exact absurd (h.1 (.issue 0x40 []) (by simp)) (by decide)

/-- The placed command, with the wait that stands after it: its response ends the run. -/
theorem witness_LastResponseEndsTheRun :
    ∃ s : State, s.stop = none ∧ s.phase = .busy (Command.ofWords [0x10, 16384]) ∧ HostWaits s ∧ s.AllIssued ∧
      s.faultRecord = [] ∧ s.refusals = [] ∧ decode (Command.ofWords [0x10, 16384]) = .ok (.sin 16384) ∧
      exec (.sin 16384) s = .next (answered s 32767 none) := by
  have h : word (State.sineAt (accepted [0x10, 16384] [.await, .reset]) (angleOf 16384)) = 32767 :=
    (show word (State.sineAt State.reset (angleOf 16384)) = 32767 by decide)
  refine ⟨accepted [0x10, 16384] [.await, .reset], rfl, rfl, .inr (.inr ⟨_, rfl⟩), by unfold accepted; decide, rfl, rfl,
    by decide, ?_⟩
  show Host.Outcome.next (State.answer _ ⟨word _, none⟩) = _
  rw [h]
  rfl

/-- An INTERP2D of two points at 16 (bytes 16 to 31) in flight, and the requester's byte write to `addr`. -/
def racing (addr : Word) : State := accepted [0x50, 5, 2, 16] [.write .byte addr 1]

theorem witness_WritesWhileBusy :
    (racing 16).stop = none ∧ (racing 16).phase = .busy (Command.ofWords [0x50, 5, 2, 16]) ∧
    (racing 16).script = .write .byte 16 1 :: [] ∧ (0xFFFFFFFC : Word).toNat + widthBytes .word ≤ 2 ^ 32 := by
  refine ⟨rfl, rfl, rfl, by decide⟩

/-- An idle block, a stopped one, and one that is busy with a table the write does not touch; the last word of the space,
and a halfword that passes its end. -/
theorem witness_WritesTakePlace :
    MayWrite { State.reset with script := [.write .word 0xFFFFFFFC 1] } 0xFFFFFFFC 4 ∧
    MayWrite { State.reset.refuse 0x12 with script := [.write .half 0xFFFFFFFF 1] } 0xFFFFFFFF 2 ∧
    MayWrite (racing 32) 32 1 ∧ (0xFFFFFFFC : Word).toNat + widthBytes .word ≤ 2 ^ 32 ∧
    2 ^ 32 < (0xFFFFFFFF : Word).toNat + widthBytes .half := by
  refine ⟨fun c _ h => (nomatch h), fun c h => (nomatch h), fun c _ h => ?_, by decide, by decide⟩
  cases h
  decide

/-- The first and the last byte of the table. -/
theorem witness_WritesWhileBusy_race :
    (∃ k < widthBytes .byte, ∃ r ∈ commandExtents (Command.ofWords [0x50, 5, 2, 16]),
      r.base ≤ (16 : Word).toNat + k ∧ (16 : Word).toNat + k < r.base + r.size) ∧
    ∃ k < widthBytes .word, ∃ r ∈ commandExtents (Command.ofWords [0x50, 5, 2, 16]),
      r.base ≤ (31 : Word).toNat + k ∧ (31 : Word).toNat + k < r.base + r.size := by decide

/-- The bytes just below and just above the table. -/
theorem witness_WritesWhileBusy_apart :
    (∀ k < widthBytes .word, ∀ r ∈ commandExtents (Command.ofWords [0x50, 5, 2, 16]),
      ¬ (r.base ≤ (12 : Word).toNat + k ∧ (12 : Word).toNat + k < r.base + r.size)) ∧
    ∀ k < widthBytes .byte, ∀ r ∈ commandExtents (Command.ofWords [0x50, 5, 2, 16]),
      ¬ (r.base ≤ (32 : Word).toNat + k ∧ (32 : Word).toNat + k < r.base + r.size) := by decide

theorem witness_WritesWhileBusy_extents :
    decode (Command.ofWords [0x50, 5, 2, 16]) = .ok (.interp2d 5 2 16) ∧
    decode (Command.ofWords [0x60, 1, 2, 3, 4, 5, 6, 7]) = .ok (.interp3d 1 2 3 4 5 6 7) := by decide

/-- A state that has received a response of two words and one of a single word, and issues a command of these operands. -/
def copying (operands : List Source) : State :=
  { State.reset with responses := [⟨7, some 9⟩, ⟨8, none⟩], script := [.issue 0x30 operands] }

/-- Both words of a response and the word of another, around a word of the requester's own. -/
theorem witness_ResultWordsAreCopied :
    (copying [.result 0 1, .word 3, .result 1 0]).stop = none ∧
    (copying [.result 0 1, .word 3, .result 1 0]).phase = .idle ∧
    (copying [.result 0 1, .word 3, .result 1 0]).script = .issue 0x30 [.result 0 1, .word 3, .result 1 0] :: [] ∧
    List.Forall₂ (Supplies (copying [.result 0 1, .word 3, .result 1 0])) [.result 0 1, .word 3, .result 1 0] [9, 3, 8] :=
  ⟨rfl, rfl, rfl, .cons ⟨_, rfl, .inr ⟨rfl, rfl⟩⟩ (.cons rfl (.cons ⟨_, rfl, .inl ⟨rfl, rfl⟩⟩ .nil))⟩

/-- The second word of a one-word response, a third word, and a response not received, each after one that is copied. -/
theorem witness_ResultWordsAreCopied_missing :
    ∀ p ∈ [((1 : Nat), (1 : Nat)), (0, 2), (2, 0)],
      (copying ([.result 0 0] ++ .result p.1 p.2 :: [.word 5])).stop = none ∧
      (copying ([.result 0 0] ++ .result p.1 p.2 :: [.word 5])).phase = .idle ∧
      (copying ([.result 0 0] ++ .result p.1 p.2 :: [.word 5])).script =
        .issue 0x30 ([.result 0 0] ++ .result p.1 p.2 :: [.word 5]) :: [] ∧
      List.Forall₂ (Supplies (copying ([.result 0 0] ++ .result p.1 p.2 :: [.word 5]))) [.result 0 0] [7] ∧
      ∀ w, ¬ Supplies (copying ([.result 0 0] ++ .result p.1 p.2 :: [.word 5])) (.result p.1 p.2) w := by
  intro p hp
  refine ⟨rfl, rfl, rfl, .cons ⟨_, rfl, .inl ⟨rfl, rfl⟩⟩ .nil, ?_⟩
  simp only [List.mem_cons, List.not_mem_nil, or_false] at hp
  rintro w ⟨r, h, h'⟩
  obtain rfl | rfl | rfl := hp
  · cases h
    simp at h'
  · cases h
    simp at h'
  · simp [copying] at h

/-- Both sides of the statement: the default build is legal, `F` = 31 is not. -/
theorem witness_IllegalBuildsAreRefused :
    (∃ s, State.launch Cfg.default [] [] [] = .ok s) ∧
    ¬ ∃ s, State.launch { Cfg.default with fracBits := 31 } [] [] [] = .ok s := by
  refine ⟨⟨_, launch_default⟩, ?_⟩
  rintro ⟨s, h⟩
  rw [test_illegal_build] at h
  cases h

theorem witness_LaunchHoldsItsPremises : ∃ s, State.launch Cfg.default [] [] [] = .ok s := ⟨_, launch_default⟩

theorem witness_InvariantHoldsAtLaunch : ∃ s, State.launch Cfg.default [] [] [] = .ok s := ⟨_, launch_default⟩

/-- A running state of the invariant whose step faults. -/
theorem witness_EveryStepKeepsTheInvariant :
    (accepted [3, 5, 0] []).Inv ∧ ∃ t, step (accepted [3, 5, 0] []) = .next t := by
  refine ⟨⟨⟨.nil, by simp [accepted, State.reset]⟩, legal_default, ?_, fun _ _ => rfl, ?_, ?_⟩, _, rfl⟩
  all_goals simp [accepted, State.reset]

/-- A stopped state of the invariant, whose step is a reset. -/
theorem witness_EveryStepKeepsTheInvariant_stopped :
    ({ accepted [3, 5, 0] [.reset] with
      stop := some (.fault (.divideByZero [3, 5, 0])), faultRecord := [.divideByZero [3, 5, 0]] } : State).Inv := by
  refine ⟨⟨.nil, by simp [accepted, State.reset]⟩, legal_default, ?_, fun _ _ => rfl, ?_, ?_⟩
  · rintro _ ⟨⟩
    exact ⟨Command.ofWords [3, 5, 0], rfl, rfl, .fdiv 5 0, by decide, by decide⟩
  · simp only [List.mem_singleton, forall_eq]
    exact ⟨5, by decide⟩
  · simp [accepted, State.reset]

theorem exec_sin_reset (script : List HostMove) :
    exec (.sin 16384) { State.reset with script := script } =
      .next (answered { State.reset with script := script } 32767 none) := by
  have h : word (State.sineAt { State.reset with script := script } (angleOf 16384)) = 32767 :=
    (show word (State.sineAt State.reset (angleOf 16384)) = 32767 by decide)
  show Host.Outcome.next (State.answer _ ⟨word _, none⟩) = _
  rw [h]
  rfl

/-- Two commands in a row, and none. -/
theorem witness_RunOfCommandsAnswersInOrder :
    ∀ cs ∈ [[], [((.sin 16384 : Instr), (⟨32767, none⟩ : Response)), (.sin 16384, ⟨32767, none⟩)]],
      ∃ s : State, s.stop = none ∧ s.phase = .idle ∧ s.script = cs.map (fun p => issueOf p.1) ∧
        ∀ p ∈ cs, p.1.wellFormed = true ∧ exec p.1 s = .next (answered s p.2.r0 p.2.r1) := by
  intro cs h
  refine ⟨{ State.reset with script := cs.map (fun p => issueOf p.1) }, rfl, rfl, rfl, ?_⟩
  simp only [List.mem_cons, List.not_mem_nil, or_false] at h
  obtain rfl | rfl := h
  · simp
  · simp only [List.mem_cons, List.not_mem_nil, or_false, or_self, forall_eq]
    exact ⟨rfl, exec_sin_reset _⟩

/-- A command that faults, a word that is refused, and a command that is dropped, each before a reset. -/
theorem witness_ResetRestartsTheRun :
    ∀ script ∈ [[issueOf (.fdiv 5 0), .await, .reset, issueOf (.sin 16384)],
        [.issue 0x12 ([1, 2].map Source.word), .await, .reset, issueOf (.sin 16384)],
        [issueOf (.fdiv 5 0), .reset, issueOf (.sin 16384)]],
      ∃ s : State, s.stop = none ∧ s.phase = .idle ∧ (Instr.sin 16384).wellFormed = true ∧
        exec (.sin 16384) s = .next (answered s 32767 none) ∧ (Instr.fdiv 5 0).wellFormed = true ∧
        exec (.fdiv 5 0) s = .next (faulted s (.divideByZero [3, 5, 0])) ∧ ReservedWord 0x12 ∧ s.script = script :=
  fun script _ => ⟨{ State.reset with script := script }, rfl, rfl, rfl, exec_sin_reset script, rfl, rfl,
    by unfold ReservedWord; decide, rfl⟩

/-- Two states that differ in a byte outside the table. -/
theorem witness_CommandsDependOnlyOnTheirInputs :
    State.SameInputs State.reset { State.reset with memory := [(15, 1)] } (instrExtents (.interp2d 5 2 16)) ∧
    State.reset.byteAt 15 ≠ State.byteAt { State.reset with memory := [(15, 1)] } 15 := by
  refine ⟨⟨rfl, fun addr h => ?_⟩, by decide⟩
  have h16 : 16 ≤ addr := by
    simp [instrExtents, Region.holds, uint32] at h
    omega
  have hne : ¬ 15 = addr := by omega
  simp [State.byteAt, State.admits, State.reset, Memory.read, hne]

/-- Every byte of the last word of the space. -/
def lastWord : State := withWords [(0xFFFFFFFC, 0x01020304)]

theorem witness_MemReadFollowsItsRule :
    (1 % 4 ≠ 0 ∧ (2 ^ 32 + 3) % 4 ≠ 0) ∧ (2 ^ 32 % 4 = 0 ∧ 2 ^ 32 + 3 > 2 ^ 32 - 1) ∧
    (0xFFFFFFFC % 4 = 0 ∧ 0xFFFFFFFC + 3 ≤ 2 ^ 32 - 1) := by decide

theorem byteIs_lastWord (k : Nat) (b : Byte) (h : k < 2 ^ 32) (hb : lastWord.memory.read k = some b) :
    ByteIs lastWord k b :=
  ⟨⟨⟨0, memoryBytes⟩, by simp [lastWord, withWords, State.reset], Nat.zero_le k,
    by simpa [memoryBytes, addrBits] using h⟩, hb⟩

theorem witness_MemReadFollowsItsRule_value :
    ByteIs lastWord 0xFFFFFFFC 4 ∧ ByteIs lastWord (0xFFFFFFFC + 1) 3 ∧ ByteIs lastWord (0xFFFFFFFC + 2) 2 ∧
    ByteIs lastWord (0xFFFFFFFC + 3) 1 :=
  ⟨byteIs_lastWord _ _ (by decide) (by decide), byteIs_lastWord _ _ (by decide) (by decide),
   byteIs_lastWord _ _ (by decide) (by decide), byteIs_lastWord _ _ (by decide) (by decide)⟩

/-- A byte nobody wrote, beside one written. -/
theorem witness_MemReadFollowsItsRule_notAdmitted :
    ∃ k < 4, ∀ b, ¬ ByteIs { State.reset with memory := [(0xFFFFFFFC, 4)] } (0xFFFFFFFC + k) b :=
  ⟨3, by decide, fun b h => by have := h.2; simp [Memory.read] at this⟩

/-- The first and the last word of the space, and the three ways to write it. -/
theorem witness_WrittenWordsAreRead :
    ∀ addr ∈ [(0 : Word), 0xFFFFFFFC], addr.toNat % 4 = 0 ∧
      ∀ k < 4, ∃ r ∈ State.reset.admitted, r.base ≤ addr.toNat + k ∧ addr.toNat + k < r.base + r.size := by
  intro addr h
  have hk : ∀ k < 4, addr.toNat + k < 2 ^ 32 := by
    intro k hk
    simp only [List.mem_cons, List.not_mem_nil, or_false] at h
    obtain rfl | rfl := h
    · simp; omega
    · simp; omega
  refine ⟨?_, fun k hk4 => ⟨⟨0, memoryBytes⟩, by simp [State.reset], Nat.zero_le _, ?_⟩⟩
  · simp only [List.mem_cons, List.not_mem_nil, or_false] at h
    obtain rfl | rfl := h
    · decide
    · decide
  · simpa [memoryBytes, addrBits] using hk k hk4

theorem witness_WrittenWordsAreRead_moves :
    ∀ script ∈ [[HostMove.write .word 0xFFFFFFFC 1], [.write .half 0xFFFFFFFC 1, .write .half (0xFFFFFFFC + 2) (1 >>> 16)],
        [.write .byte (0xFFFFFFFC + 3) (1 >>> 24), .write .byte 0xFFFFFFFC 1, .write .byte (0xFFFFFFFC + 2) (1 >>> 16),
          .write .byte (0xFFFFFFFC + 1) (1 >>> 8)]],
      MayWrite { State.reset with script := script } (0xFFFFFFFC : Word).toNat 4 := fun _ _ _ _ h => (nomatch h)

theorem witness_ConvResult :
    (0 : BitVec 5).toNat ≤ 30 ∧ (30 : BitVec 5).toNat ≤ 30 ∧ (0 : BitVec 5).toNat ≤ (30 : BitVec 5).toNat ∧
    ¬ (30 : BitVec 5).toNat ≤ (0 : BitVec 5).toNat := by decide

/-- The largest shift up that does not overflow (v = −2 from 0 to 30), and a shift down. -/
theorem witness_ConvRoundTrip :
    (0 : BitVec 5).toNat ≤ 30 ∧ (30 : BitVec 5).toNat ≤ 30 ∧ (0 : BitVec 5).toNat ≤ (30 : BitVec 5).toNat ∧
    -2 ^ 31 ≤ (-2 : Word).toInt * 2 ^ ((30 : BitVec 5).toNat - (0 : BitVec 5).toNat) ∧
    (-2 : Word).toInt * 2 ^ ((30 : BitVec 5).toNat - (0 : BitVec 5).toNat) ≤ 2 ^ 31 - 1 := by decide

theorem witness_ConvRoundTrip_down :
    (12 : BitVec 5).toNat < (15 : BitVec 5).toNat ∧ (15 : BitVec 5).toNat ≤ 30 ∧
    State.reset.cfg.shrRound = .towardZero := by decide

/-- The largest product that INT32 keeps: 46340 squared. -/
theorem witness_FmulErrorBelowOneUnit :
    (State.reset.cfg.mulProduct = .int32 → -2 ^ 31 ≤ (46340 : Word).toInt * (46340 : Word).toInt ∧
      (46340 : Word).toInt * (46340 : Word).toInt ≤ 2 ^ 31 - 1) ∧
    -2 ^ 31 ≤ libMul State.reset.cfg (46340 : Word).toInt (46340 : Word).toInt ∧
    libMul State.reset.cfg (46340 : Word).toInt (46340 : Word).toInt ≤ 2 ^ 31 - 1 := by decide +kernel

theorem witness_FdivResult : (0xFFFFFFFF : Word) ≠ 0 ∧ (0 : Word) = 0 := by decide

theorem witness_OnlyFdivDividesByZero :
    exec (.fdiv 5 0) State.reset = .next (faulted State.reset (.divideByZero [3, 5, 0])) := rfl

theorem witness_FabsResult : (0x80000001 : Word) ≠ 0x80000000 ∧ (0x80000000 : Word) = 0x80000000 := by decide

/-- The first and the last angle of a table entry. -/
theorem witness_TrigIdentities :
    State.reset.cfg.legal = true ∧ (0x0000FF00 : Word).toNat / 256 % 256 = (0xFFFFFFFF : Word).toNat / 256 % 256 :=
  ⟨legal_default, by decide⟩

/-- An input of each quadrant, and the zero input of a build without the special case. -/
theorem witness_Cart2polFollowsTheRecurrence :
    (∀ p ∈ [((-1 : Word), (-1 : Word)), (-1, 0), (0, -1), (0x80000000, 0x80000000)],
      ¬ (State.reset.cfg.cordicZeroSpecial = .enabled ∧ p.1 = 0 ∧ p.2 = 0)) ∧
    ¬ ((withCfg fun c => { c with cordicZeroSpecial := .disabled }).cfg.cordicZeroSpecial = .enabled ∧
      (0 : Word) = 0 ∧ (0 : Word) = 0) := by simp [withCfg]

theorem witness_Cart2polOfZero :
    State.reset.cfg.legal = true ∧ State.reset.cfg.cordicZeroSpecial = .enabled ∧
    (withCfg fun c => { c with cordicZeroSpecial := .disabled }).cfg.legal = true ∧
    (withCfg fun c => { c with cordicZeroSpecial := .disabled }).cfg.cordicZeroSpecial = .disabled :=
  ⟨legal_default, rfl, legal_default, rfl⟩

theorem witness_Cart2polDoesNotWrap :
    State.reset.cfg.legal = true ∧ |(0x20000000 : Word).toInt| ≤ 2 ^ 29 ∧ |(0xE0000000 : Word).toInt| ≤ 2 ^ 29 ∧
    ¬ ((0x20000000 : Word) = 0 ∧ (0xE0000000 : Word) = 0) := ⟨legal_default, by decide, by decide, by decide⟩

/-- The largest inner sum whose product INT32 keeps in the default build (113509, C14), and one past it under WIDE. -/
theorem witness_ClarkeErrorBelowOneUnit :
    (-2 ^ 31 ≤ (113509 : Word).toInt + 2 * (0 : Word).toInt ∧ (113509 : Word).toInt + 2 * (0 : Word).toInt ≤ 2 ^ 31 - 1 ∧
      (State.reset.cfg.mulProduct = .int32 →
        -2 ^ 31 ≤ ((113509 : Word).toInt + 2 * (0 : Word).toInt) * State.reset.cfg.invSqrt3 ∧
        ((113509 : Word).toInt + 2 * (0 : Word).toInt) * State.reset.cfg.invSqrt3 ≤ 2 ^ 31 - 1) ∧
      -2 ^ 31 ≤ libMul State.reset.cfg ((113509 : Word).toInt + 2 * (0 : Word).toInt) State.reset.cfg.invSqrt3 ∧
      libMul State.reset.cfg ((113509 : Word).toInt + 2 * (0 : Word).toInt) State.reset.cfg.invSqrt3 ≤ 2 ^ 31 - 1) ∧
    (withCfg fun c => { c with mulProduct := .wide }).cfg.mulProduct ≠ .int32 ∧
    libMul (withCfg fun c => { c with mulProduct := .wide }).cfg ((113510 : Word).toInt + 2 * (0 : Word).toInt)
      (withCfg fun c => { c with mulProduct := .wide }).cfg.invSqrt3 ≤ 2 ^ 31 - 1 := by decide +kernel

theorem witness_SegmentSearchBrackets : 2 ≤ [(0 : Int), 10].length ∧ 2 ≤ [(0 : Int), 10, 20].length := by decide

theorem witness_LinearFormulaRounds :
    (-2 ^ 31 : Int) ≠ 2 ^ 31 - 1 ∧ (1 : Int) ≤ 2 ^ 31 - 1 - (-2 ^ 31) ∧ (2 ^ 31 - 1 - (-2 ^ 31) : Int) ≤ 2 ^ 32 - 1 ∧
    (1 : Int) ≤ 1 - 0 := by decide

/-- The x values and the y values of `threePoints`. -/
def threeX (k : Nat) : Int := [0, 10, 20].getD k 0

def threeY (k : Nat) : Int := [0, 100, 50].getD k 0

/-- A read that fails after the whole table was read, and one that fails at once. -/
theorem witness_Interp2dOutcomes_access :
    (6 < 2 * (4 : Word).toNat ∧ (∀ j < 6, ∃ v, threePoints.memRead ((0x20000000 : Word).toNat + 4 * j) = .ok v) ∧
      threePoints.memRead ((0x20000000 : Word).toNat + 4 * 6) = .error ⟨0x20000018, .notAdmitted⟩) ∧
    0 < 2 * (1 : Word).toNat ∧ threePoints.memRead ((0x20000002 : Word).toNat + 4 * 0) =
      .error ⟨0x20000002, .misaligned⟩ := by
  refine ⟨⟨by decide, fun j h => ?_, by decide⟩, by decide, by decide⟩
  interval_cases j
  all_goals exact ⟨_, rfl⟩

/-- No point, one point. -/
theorem witness_Interp2dOutcomes_tooFewPoints :
    (Table2d State.reset 0 (0 : Word).toNat threeX threeY ∧ (0 : Word).toNat < 2) ∧
    Table2d threePoints 0x20000000 (1 : Word).toNat threeX threeY ∧ (1 : Word).toNat < 2 := by
  unfold Table2d
  decide

/-- Points of one x value. -/
theorem witness_Interp2dOutcomes_notAscending :
    Table2d (withWords [(0, 5), (4, 1), (8, 5), (12, 2)]) 0 (2 : Word).toNat (fun _ => 5) (fun k => k + 1) ∧
    2 ≤ (2 : Word).toNat ∧ ¬ Rising (2 : Word).toNat (fun _ => 5) := by
  refine ⟨by unfold Table2d; decide, by decide, fun h => ?_⟩
  exact absurd (h 1 (by decide) (by decide)) (by decide)

theorem rising_threeX (n : Nat) (h : n ≤ 3) : Rising n threeX := by
  intro k h1 hk
  have h3 : k < 3 := by omega
  interval_cases k
  all_goals decide

theorem witness_Interp2dOutcomes_result :
    Table2d threePoints 0x20000000 (3 : Word).toNat threeX threeY ∧ 2 ≤ (3 : Word).toNat ∧
    Rising (3 : Word).toNat threeX ∧ Table2d threePoints 0x20000000 (2 : Word).toNat threeX threeY ∧
    2 ≤ (2 : Word).toNat ∧ Rising (2 : Word).toNat threeX :=
  ⟨by unfold Table2d; decide, by decide, rising_threeX _ (by decide), by unfold Table2d; decide, by decide,
   rising_threeX _ (by decide)⟩

/-- A query at the last point of the table. -/
theorem witness_Interp2dIsExactAtPoints :
    threePoints.cfg.interpArith = .wide ∧ 2 ≤ (3 : Word).toNat ∧
    Table2d threePoints (0x20000000 : Word).toNat (3 : Word).toNat threeX threeY ∧ Rising (3 : Word).toNat threeX ∧
    2 < (3 : Word).toNat ∧ (20 : Word).toInt = threeX 2 :=
  ⟨by decide, by decide, by unfold Table2d; decide, rising_threeX _ (by decide), by decide, by decide⟩

/-- The y axis and the values of `grid32`. -/
def twoY (k : Nat) : Int := [0, 10].getD k 0

def gridZ (i j : Nat) : Int := [0, 10, 40, 100, 110, 140].getD (3 * j + i) 0

theorem rising_twoY : Rising 2 twoY := by
  intro k h1 hk
  interval_cases k
  decide

theorem witness_Interp3dOutcomes_access :
    12 < (3 : Word).toNat + (3 : Word).toNat + (3 : Word).toNat * (3 : Word).toNat ∧
    gridAddr 3 3 0x20000100 0x20000110 0x20000120 5 = 0x20000118 ∧
    (∀ j < 5, ∃ v, grid32.memRead
      (gridAddr (3 : Word).toNat (3 : Word).toNat 0x20000100 0x20000110 0x20000120 j) = .ok v) ∧
    grid32.memRead (gridAddr (3 : Word).toNat (3 : Word).toNat 0x20000100 0x20000110 0x20000120 5) =
      .error ⟨0x20000118, .notAdmitted⟩ := by
  refine ⟨by decide, by decide, fun j h => ?_, by decide⟩
  interval_cases j
  all_goals exact ⟨_, rfl⟩

/-- One x value; no y value. -/
theorem witness_Interp3dOutcomes_tooFewPoints :
    (Table3d grid32 (1 : Word).toNat (2 : Word).toNat 0x20000100 0x20000110 0x20000120 threeX twoY
      (fun _ j => 10 * (j : Int)) ∧ (1 : Word).toNat < 2) ∧
    Table3d grid32 (2 : Word).toNat (0 : Word).toNat 0x20000100 0x20000110 0x20000120 threeX twoY gridZ ∧
    (0 : Word).toNat < 2 := by
  unfold Table3d
  decide

/-- An x axis of one value. -/
theorem witness_Interp3dOutcomes_notAscending :
    Table3d (withWords ([(0, 5), (4, 5), (8, 0), (12, 1)] ++ [(16, 0), (20, 0), (24, 0), (28, 0)]))
      (2 : Word).toNat (2 : Word).toNat 0 8 16 (fun _ => 5) (fun k => k) (fun _ _ => 0) ∧
    2 ≤ (2 : Word).toNat ∧ ¬ (Rising (2 : Word).toNat (fun _ => 5) ∧ Rising (2 : Word).toNat (fun k => k)) := by
  refine ⟨by unfold Table3d; decide, by decide, fun h => ?_⟩
  exact absurd (h.1 1 (by decide) (by decide)) (by decide)

theorem table_grid32 :
    Table3d grid32 (3 : Word).toNat (2 : Word).toNat 0x20000100 0x20000110 0x20000120 threeX twoY gridZ := by
  unfold Table3d
  decide

theorem witness_Interp3dOutcomes_result :
    Table3d grid32 (3 : Word).toNat (2 : Word).toNat 0x20000100 0x20000110 0x20000120 threeX twoY gridZ ∧
    2 ≤ (3 : Word).toNat ∧ 2 ≤ (2 : Word).toNat ∧ Rising (3 : Word).toNat threeX ∧ Rising (2 : Word).toNat twoY :=
  ⟨table_grid32, by decide, by decide, rising_threeX _ (by decide), rising_twoY⟩

/-- A query at the last grid point. -/
theorem witness_Interp3dIsExactOnTheGrid :
    grid32.cfg.interpArith = .wide ∧
    Table3d grid32 (3 : Word).toNat (2 : Word).toNat 0x20000100 0x20000110 0x20000120 threeX twoY gridZ ∧
    2 ≤ (3 : Word).toNat ∧ 2 ≤ (2 : Word).toNat ∧ Rising (3 : Word).toNat threeX ∧ Rising (2 : Word).toNat twoY ∧
    1 < (2 : Word).toNat ∧ (10 : Word).toInt = twoY 1 ∧ 2 < (3 : Word).toNat ∧ (20 : Word).toInt = threeX 2 :=
  ⟨by decide, table_grid32, by decide, by decide, rising_threeX _ (by decide), rising_twoY, by decide, by decide,
   by decide, by decide⟩

theorem witness_AssembledLinesDecode :
    Cfg.default.fracBits ≤ 30 ∧
    assembleLine Cfg.default [] ⟨none, .conv, [.decimal 0, .decimal 30, .decimal (-1)]⟩ =
      .ok (.issue 0x001E0001 [.word 0xFFFFFFFF]) ∧
    [(0xFFFFFFFF : Word)].length = [Source.word 0xFFFFFFFF].length := by decide

/-- An FMUL line whose operands are the largest hexadecimal word and an earlier result. -/
theorem witness_AssembledLinesDecode_line :
    LineMeans Cfg.default ⟨none, .fmul, [.hex 0xFFFFFFFF, .result ['a'] 1]⟩ [0xFFFFFFFF, 5] (.fmul 0xFFFFFFFF 5) ∧
    List.Forall₂ (FillsSlot Cfg.default [⟨['a'], 4, 2⟩])
      (slotOperands ⟨none, .fmul, [.hex 0xFFFFFFFF, .result ['a'] 1]⟩) [.word 0xFFFFFFFF, .result 4 1] :=
  ⟨rfl, .cons ⟨by decide, rfl⟩ (.cons ⟨⟨['a'], 4, 2⟩, by decide, by decide, rfl⟩ .nil)⟩

/-- A CONV line at the largest formats. -/
theorem witness_AssembledLinesDecode_conv :
    LineMeans Cfg.default ⟨none, .conv, [.decimal 30, .decimal 30, .decimal (-2 ^ 31)]⟩ [0x80000000]
      (.conv 30 30 0x80000000) ∧
    List.Forall₂ (FillsSlot Cfg.default [])
      (slotOperands ⟨none, .conv, [.decimal 30, .decimal 30, .decimal (-2 ^ 31)]⟩) [.word 0x80000000] :=
  ⟨⟨30, 30, ⟨by decide, rfl⟩, ⟨by decide, rfl⟩, rfl⟩, .cons ⟨by decide, by decide, by decide⟩ .nil⟩

theorem witness_PseudoInstructionsExpand :
    Cfg.default.fracBits ≤ 30 ∧ ({ Cfg.default with fracBits := 30 } : Cfg).fracBits ≤ 30 := by decide

end Sys2Proof.Tests
end

section
/-! PROOFS, `00_scope.md`: the build and the launch. Which builds are legal, in the numbers of Table CFG, and the state
that a launch makes of a legal one (R6, R26, R28, R213). -/

namespace Sys2Proof

/-- A list does not rise exactly when each entry is at most the one before it (R28). -/
theorem nonIncreasing_iff (v : List Nat) :
    nonIncreasing v = true ↔ ∀ i, i + 1 < v.length → v.getD (i + 1) 0 ≤ v.getD i 0 := by
  induction v with
  | nil => simp [nonIncreasing]
  | cons a rest ih =>
    cases rest with
    | nil => simp [nonIncreasing]
    | cons b rest =>
      simp only [nonIncreasing, Bool.and_eq_true, decide_eq_true_eq, ih]
      constructor
      · rintro ⟨first, others⟩ (_ | i) hi
        · simpa using first
        · simpa using others i (by simpa using hi)
      · intro h
        exact ⟨by simpa using h 0 (by simp), fun i hi => by simpa using h (i + 1) (by simpa using hi)⟩

namespace Cfg

theorem legalF_iff (c : Cfg) : c.legalF = true ↔ c.fracBits ≤ 30 := by
  simp [legalF]

theorem legalSine_iff (c : Cfg) : c.legalSine = true ↔
    c.sineTable.length = 256 ∧ (∀ k ≤ 128, c.sine (128 - k) = c.sine k) ∧
      ∀ k < 256, c.sine ((k + 128) % 256) = -c.sine k := by
  simp only [legalSine, Bool.and_eq_true, beq_iff_eq, List.all_eq_true, List.mem_range, and_assoc,
    Nat.lt_succ_iff (n := 128)]
  rfl

theorem legalAtan_iff (c : Cfg) : c.legalAtan = true ↔
    c.cordicAtan.length = 14 ∧ (∀ t ∈ c.cordicAtan, t ≤ 32767) ∧
      ∀ i < 13, c.cordicAtan.getD (i + 1) 0 ≤ c.cordicAtan.getD i 0 := by
  simp only [legalAtan, Bool.and_eq_true, beq_iff_eq, List.all_eq_true, decide_eq_true_eq, nonIncreasing_iff, and_assoc]
  refine and_congr_right fun len => and_congr_right fun _ => forall_congr' fun i => ?_
  rw [len, Nat.succ_lt_succ_iff]

theorem legalGain_iff (c : Cfg) : c.legalGain = true ↔ 1 ≤ c.cordicGainQ16 ∧ c.cordicGainQ16 ≤ 65535 := by
  simp [legalGain]

theorem legalInvSqrt3_iff (c : Cfg) :
    c.legalInvSqrt3 = true ↔ -2 ^ 31 ≤ c.invSqrt3 ∧ c.invSqrt3 ≤ 2 ^ 31 - 1 := by
  simp [legalInvSqrt3]

/-- A build is legal exactly when each field of Table CFG is (R6). -/
theorem legal_iff (c : Cfg) : c.legal = true ↔
    c.legalF = true ∧ c.legalSine = true ∧ c.legalAtan = true ∧ c.legalGain = true ∧ c.legalInvSqrt3 = true := by
  simp [legal, and_assoc]

theorem build_eq_ok_iff (c d : Cfg) : c.build = .ok d ↔ c.legal = true ∧ d = c := by
  rw [legal_iff]
  unfold build
  split_ifs with f sine atan gain inv
  · simp [f]
  · simp [sine]
  · simp [atan]
  · simp [gain]
  · simp [inv]
  · rw [Bool.not_eq_false] at f sine atan gain inv
    simp [f, sine, atan, gain, inv, eq_comm (a := d)]

/-- The code of 1/√3 fits in 32 bits at every legal `F` and under both roundings (R31). -/
theorem legalInvSqrt3_defaultFor {f : Nat} (hf : f ≤ 30) (round : LitRound) :
    (defaultFor f round).legalInvSqrt3 = true := by
  have every : ∀ f < 31, ∀ round ∈ [LitRound.nearestAway, .towardZero],
      (defaultFor f round).legalInvSqrt3 = true := by decide +kernel
  exact every f (by omega) round (by cases round <;> simp)

/-- The default build of Table CFG is legal at every legal `F` (R27, R29, R30, R31). -/
theorem legal_defaultFor {f : Nat} (hf : f ≤ 30) (round : LitRound) : (defaultFor f round).legal = true := by
  have sine : (defaultFor 0 round).legalSine = true := by cases round <;> decide +kernel
  exact (legal_iff _).2 ⟨(legalF_iff _).2 hf, sine, rfl, rfl, legalInvSqrt3_defaultFor hf round⟩

end Cfg

namespace Machine

/-- A launch is made of a legal build, and this is the state it makes (R213). -/
theorem State.launch_eq_ok_iff {cfg : Cfg} {bytes : List Host.Cell} {admitted : List Region}
    {script : List HostMove} {s : State} : State.launch cfg bytes admitted script = .ok s ↔
      cfg.legal = true ∧ s = { State.reset with
        cfg := cfg
        memory := (bytes.filter fun x => decide (x.1 < memoryBytes)).foldl (fun m x => Memory.write m x.1 x.2) []
        admitted := admitted
        script := script } := by
  unfold State.launch
  cases h : cfg.build with
  | error e =>
    have illegal : ¬ cfg.legal = true := fun legal => by
      have := (Cfg.build_eq_ok_iff cfg cfg).2 ⟨legal, rfl⟩
      simp [h] at this
    simp [illegal]
  | ok c =>
    obtain ⟨legal, rfl⟩ := (Cfg.build_eq_ok_iff cfg c).1 h
    simp [legal, eq_comm]

/-- Bytes written one after another, in any order, leave table memory canonical (R40). -/
theorem Memory.foldl_write_wf {m : Memory} (h : m.Wf) {bytes : List Host.Cell}
    (inside : ∀ x ∈ bytes, x.1 < memoryBytes) : Memory.Wf (bytes.foldl (fun m x => Memory.write m x.1 x.2) m) := by
  induction bytes generalizing m with
  | nil => exact h
  | cons x rest ih =>
    exact ih (Memory.write_wf h x.2 (inside x (List.mem_cons_self ..)))
      fun y hy => inside y (List.mem_cons_of_mem _ hy)

end Machine

end Sys2Proof
end

section
/-! PROOFS, `00_scope.md`: how a command ends. One case split over the eleven commands says that its end is fixed by the
operands, the build and the bytes of its declared extents (R35, R49), and that a fault is one of Table FAULTS
(R191, R194, R195). -/

namespace Sys2Proof.Machine

/-! ### Reads of table memory -/

/-- A failing read reports its own address (R43). -/
theorem State.memRead_error_addr {s : State} {addr : Nat} {e : AccessFault} (h : s.memRead addr = .error e) :
    e.addr = addr := by
  unfold State.memRead at h
  split at h
  · cases h; rfl
  · split at h
    · cases h; rfl
    · split at h
      · cases h
      · cases h; rfl

/-- A read depends on the four bytes from its address on. -/
theorem State.memRead_congr {s t : State} {addr : Nat} (same : ∀ k < 4, s.byteAt (addr + k) = t.byteAt (addr + k)) :
    s.memRead addr = t.memRead addr := by
  have h0 : s.byteAt addr = t.byteAt addr := same 0 (by omega)
  simp only [State.memRead, h0, same 1 (by omega), same 2 (by omega), same 3 (by omega)]

theorem Region.holds_iff (r : Region) (addr : Nat) : r.holds addr = true ↔ r.base ≤ addr ∧ addr < r.base + r.size := by
  simp [Region.holds]

/-- The two states hold the same bytes at the `size` addresses from `base` on. -/
def SameBytes (s t : State) (base size : Nat) : Prop :=
  ∀ addr, base ≤ addr → addr < base + size → s.byteAt addr = t.byteAt addr

/-- States with the same inputs hold the same bytes in each of the regions. -/
theorem State.SameInputs.sameBytes {s t : State} {regions : List Region} (same : s.SameInputs t regions)
    {base size : Nat} (region : ⟨base, size⟩ ∈ regions) : SameBytes s t base size :=
  fun addr lo hi => same.2 addr (List.any_eq_true.2 ⟨_, region, (Region.holds_iff ..).2 ⟨lo, hi⟩⟩)

theorem State.readWords_congr {s t : State} {addr n : Nat} (same : SameBytes s t addr (4 * n)) :
    s.readWords addr n = t.readWords addr n := by
  induction n generalizing addr with
  | zero => rfl
  | succ n ih =>
    have first : s.memRead addr = t.memRead addr :=
      State.memRead_congr fun k hk => same _ (by omega) (by omega)
    have others : s.readWords (addr + 4) n = t.readWords (addr + 4) n :=
      ih fun a lo hi => same a (by omega) (by omega)
    simp only [State.readWords, first, others]

theorem State.readPoints_congr {s t : State} {base n : Nat} (same : SameBytes s t base (8 * n)) :
    s.readPoints base n = t.readPoints base n := by
  have words : s.readWords base (2 * n) = t.readWords base (2 * n) :=
    State.readWords_congr (by rwa [show 4 * (2 * n) = 8 * n by omega])
  rw [State.readPoints_eq, State.readPoints_eq, words]

/-- A failing run of words reports an address of the run (R47). -/
theorem State.readWords_error_holds {s : State} {addr n : Nat} {e : AccessFault}
    (h : s.readWords addr n = .error e) : (Region.mk addr (4 * n)).holds e.addr = true := by
  obtain ⟨k, hk, -, at_k⟩ := (s.readWords_eq_error_iff addr n e).1 h
  rw [State.memRead_error_addr at_k, Region.holds_iff]
  simp only
  omega

theorem State.readPoints_error_holds {s : State} {base n : Nat} {e : AccessFault}
    (h : s.readPoints base n = .error e) : (Region.mk base (8 * n)).holds e.addr = true := by
  rw [State.readPoints_eq] at h
  split at h
  · rename_i e' words
    cases h
    rw [show 8 * n = 4 * (2 * n) by omega]
    exact State.readWords_error_holds words
  · cases h

section
variable {s t : State} {x y nx ny xbase ybase zbase : Word}

theorem State.readGrid_congr (same : s.SameInputs t (instrExtents (.interp3d x y nx ny xbase ybase zbase))) :
    s.readGrid (uint32 nx) (uint32 ny) (uint32 xbase) (uint32 ybase) (uint32 zbase) =
      t.readGrid (uint32 nx) (uint32 ny) (uint32 xbase) (uint32 ybase) (uint32 zbase) := by
  have xs := State.readWords_congr (same.sameBytes (base := uint32 xbase) (size := 4 * uint32 nx) (by simp [instrExtents]))
  have ys := State.readWords_congr (same.sameBytes (base := uint32 ybase) (size := 4 * uint32 ny) (by simp [instrExtents]))
  have zs := State.readWords_congr
    (same.sameBytes (base := uint32 zbase) (size := 4 * (uint32 nx * uint32 ny)) (by simp [instrExtents]))
  simp only [State.readGrid, xs, ys, zs]

/-- A failing read of a 3-D table reports an address of one of its three extents (R47, R171). -/
theorem State.readGrid_error_holds {e : AccessFault}
    (h : s.readGrid (uint32 nx) (uint32 ny) (uint32 xbase) (uint32 ybase) (uint32 zbase) = .error e) :
    (instrExtents (.interp3d x y nx ny xbase ybase zbase)).any (·.holds e.addr) = true := by
  rw [List.any_eq_true]
  unfold State.readGrid at h
  split at h
  · rename_i e' xs
    cases h
    exact ⟨_, by simp [instrExtents], State.readWords_error_holds xs⟩
  · split at h
    · rename_i e' ys
      cases h
      exact ⟨_, by simp [instrExtents], State.readWords_error_holds ys⟩
    · split at h
      · rename_i e' zs
        cases h
        exact ⟨_, by simp [instrExtents], State.readWords_error_holds zs⟩
      · cases h

end

/-! ### The end of a command -/

/-- From `s` and from `t` the command ends alike: with one response, or with one fault, which Table FAULTS allows. -/
def EndAlike (s t : State) (o p : Outcome) : Prop :=
  (∃ r, o = .next (s.answer r) ∧ p = .next (t.answer r)) ∨
    ∃ f : CommandFault, f.Sound ∧ o = .next (s.fail f) ∧ p = .next (t.fail f)

theorem EndAlike.respond (s t : State) (r0 : Int) : EndAlike s t (s.respond r0) (t.respond r0) :=
  .inl ⟨_, rfl, rfl⟩

theorem EndAlike.respond2 (s t : State) (r0 r1 : Int) : EndAlike s t (s.respond2 r0 r1) (t.respond2 r0 r1) :=
  .inl ⟨_, rfl, rfl⟩

theorem EndAlike.raise (s t : State) {f : CommandFault} (sound : f.Sound) : EndAlike s t (s.raise f) (t.raise f) :=
  .inr ⟨f, sound, rfl, rfl⟩

theorem execFdiv_endAlike {s t : State} (cfg : s.cfg = t.cfg) (a b : Word) :
    EndAlike s t (execFdiv a b s) (execFdiv a b t) := by
  unfold execFdiv
  split
  · rename_i zero
    rw [(sint32_eq_zero_iff b).1 zero]
    exact .raise s t ⟨a, rfl⟩
  · rw [cfg]
    exact .respond ..

theorem execCart2pol_endAlike {s t : State} (cfg : s.cfg = t.cfg) (re im : Word) :
    EndAlike s t (execCart2pol re im s) (execCart2pol re im t) := by
  unfold execCart2pol
  simp only [State.rotate, State.romAtan, State.romGain, cfg]
  split <;> exact .respond2 ..

theorem execInterp2d_endAlike {s t : State} {x n base : Word}
    (same : s.SameInputs t (instrExtents (.interp2d x n base))) :
    EndAlike s t (execInterp2d x n base s) (execInterp2d x n base t) := by
  have points : s.readPoints (uint32 base) (uint32 n) = t.readPoints (uint32 base) (uint32 n) :=
    State.readPoints_congr (same.sameBytes (by simp [instrExtents]))
  simp only [execInterp2d, points, same.1]
  split
  · rename_i e unread
    obtain ⟨lo, hi⟩ := (Region.holds_iff ..).1 (State.readPoints_error_holds unread)
    exact .raise s t (.inl ⟨x, n, base, rfl, lo, hi⟩)
  · split
    · exact .raise s t ⟨x, n, base, rfl⟩
    · split
      · exact .raise s t ⟨x, n, base, rfl⟩
      · exact .respond ..

theorem execInterp3d_endAlike {s t : State} {x y nx ny xbase ybase zbase : Word}
    (same : s.SameInputs t (instrExtents (.interp3d x y nx ny xbase ybase zbase))) :
    EndAlike s t (execInterp3d x y nx ny xbase ybase zbase s) (execInterp3d x y nx ny xbase ybase zbase t) := by
  simp only [execInterp3d, State.readGrid_congr same, same.1]
  split
  · rename_i e unread
    exact .raise s t (.inr ⟨x, y, nx, ny, xbase, ybase, zbase, rfl, State.readGrid_error_holds unread⟩)
  · split
    · exact .raise s t ⟨x, y, nx, ny, xbase, ybase, zbase, rfl⟩
    · split
      · exact .raise s t ⟨x, y, nx, ny, xbase, ybase, zbase, rfl⟩
      · exact .respond ..

/-- A command ends alike from two states that give it the same inputs. -/
theorem exec_endAlike (i : Instr) {s t : State} (same : s.SameInputs t (instrExtents i)) :
    EndAlike s t (exec i s) (exec i t) := by
  have cfg : s.cfg = t.cfg := same.1
  cases i with
  | conv fs fd v =>
    simp only [exec, execConv, cfg]
    exact .respond ..
  | fmul a b =>
    simp only [exec, execFmul, cfg]
    exact .respond ..
  | fdiv a b => exact execFdiv_endAlike cfg a b
  | fabs a => exact .respond ..
  | sin angle =>
    simp only [exec, execSin, State.sineAt, State.romSine, cfg]
    exact .respond ..
  | cos angle =>
    simp only [exec, execCos, State.sineAt, State.romSine, cfg]
    exact .respond ..
  | cart2pol re im => exact execCart2pol_endAlike cfg re im
  | clarke a b c =>
    simp only [exec, execClarke, State.romInvSqrt3, cfg]
    exact .respond2 ..
  | isqrt n => exact .respond ..
  | interp2d x n base => exact execInterp2d_endAlike same
  | interp3d x y nx ny xbase ybase zbase => exact execInterp3d_endAlike same

/-- A command raises only a fault that Table FAULTS lets it raise (R190): it ends alike from a state and that state. -/
theorem exec_fault_sound {i : Instr} {s : State} {f : CommandFault} (run : exec i s = .next (s.fail f)) : f.Sound := by
  rcases exec_endAlike i (⟨rfl, fun _ _ => rfl⟩ : s.SameInputs s (instrExtents i)) with ⟨r, e, -⟩ | ⟨g, sound, e, -⟩
  · have records := congrArg State.faultRecord (Host.Outcome.next.inj (run.symm.trans e))
    simp at records
  · have records := congrArg State.faultRecord (Host.Outcome.next.inj (run.symm.trans e))
    have : f = g := by simpa using records
    exact this ▸ sound

end Sys2Proof.Machine
end

section
/-! PROOFS, `00_scope.md`: what the invariant needs of each operation of the machine, one lemma an operation, and the
invariant over a step by the cases of `StepCase` (R25, R190 to R195, R210). -/

namespace Sys2Proof

/-- Whether an OPC value names a command does not depend on the operand slots (R65). -/
theorem commandOfOpc_eq_none {opc : BitVec 8} {a : Vector Word 7} (h : commandOfOpc opc a = none)
    (b : Vector Word 7) : commandOfOpc opc b = none := by
  unfold commandOfOpc at h ⊢
  split at h
  case h_11 => rfl
  all_goals cases h

namespace Machine

/-- The decoder refuses a word by its bits alone (R65, R66). -/
theorem reserved_of_decode_error {c : Command} {e : DecodeError} (h : decode c = .error e) : Reserved c.cmd := by
  intro a
  unfold decode at h ⊢
  split_ifs at h ⊢
  · rfl
  · rfl
  · rfl
  · split at h
    · cases h
    · rename_i none
      rw [commandOfOpc_eq_none none]

/-! ### The invariant, operation by operation -/

namespace State.Inv

/-- A running, idle block with empty records meets the invariant (R36, R213). -/
theorem of_quiet {s : State} (idle : s.phase = .idle) (running : s.stop = none) (record : s.faultRecord = [])
    (mark : s.refusals = []) (memory : s.memory.Wf) (cfg : s.cfg.legal = true) : s.Inv where
  memory := memory
  cfg := cfg
  stopped := by simp [running]
  owed := by simp [idle]
  faults := by simp [record]
  refused := by simp [mark]

variable {s : State}

theorem withScript (inv : s.Inv) (moves : List HostMove) : State.Inv { s with script := moves } :=
  ⟨inv.memory, inv.cfg, inv.stopped, inv.owed, inv.faults, inv.refused⟩

theorem withMemory (inv : s.Inv) {m : Memory} (wf : m.Wf) : State.Inv { s with memory := m } :=
  ⟨wf, inv.cfg, inv.stopped, inv.owed, inv.faults, inv.refused⟩

theorem assertReset (inv : s.Inv) : s.assertReset.Inv :=
  ⟨inv.memory, inv.cfg, by simp, by simp, inv.faults, inv.refused⟩

theorem accept (inv : s.Inv) (running : s.stop = none) (c : Command) : (s.accept c).Inv :=
  ⟨inv.memory, inv.cfg, by simp [running], fun _ _ => rfl, inv.faults, inv.refused⟩

theorem answer (inv : s.Inv) (running : s.stop = none) (r : Response) : (s.answer r).Inv :=
  ⟨inv.memory, inv.cfg, by simp [running], by simp, inv.faults, inv.refused⟩

/-- A fault joins the record, whose last entry is then the command's that stopped the block (R192). -/
theorem fail (inv : s.Inv) {c : Command} (busy : s.phase = .busy c) {i : Instr} (decoded : decode c = .ok i)
    {f : CommandFault} (records : f.command = encode i) (sound : f.Sound) : (s.fail f).Inv where
  memory := inv.memory
  cfg := inv.cfg
  stopped := by
    rintro _ ⟨⟩
    exact ⟨c, busy, by simp, i, decoded, records⟩
  owed := inv.owed
  faults g hg := by
    rcases List.mem_append.1 hg with old | new
    · exact inv.faults g old
    · rw [List.mem_singleton.1 new]
      exact sound
  refused := inv.refused

/-- A refused word joins the mark, whose last entry is then the word that stopped the block (R193). -/
theorem refuse (inv : s.Inv) {c : Command} (busy : s.phase = .busy c) (reserved : Reserved c.cmd) :
    (s.refuse c.cmd).Inv where
  memory := inv.memory
  cfg := inv.cfg
  stopped := by
    rintro _ ⟨⟩
    exact ⟨c, busy, by simp, rfl⟩
  owed := inv.owed
  faults := inv.faults
  refused w hw := by
    rcases List.mem_append.1 hw with old | new
    · exact inv.refused w old
    · rw [List.mem_singleton.1 new]
      exact reserved

/-- Every step keeps the invariant. -/
theorem step {t : State} (inv : s.Inv) (h : Machine.step s = .next t) : t.Inv := by
  cases step_next_cases h with
  | waits _ _ _ next => exact next ▸ inv
  | issues running _ cmd operands rest _ ws _ next => exact next ▸ (inv.withScript rest).accept running _
  | moves _ rest _ next => exact next ▸ inv.withScript rest
  | writes width addr value rest _ fits _ next =>
    exact next ▸ (inv.withScript rest).withMemory (Memory.writeBytes_wf inv.memory _ fits)
  | resets rest _ next => exact next ▸ (inv.withScript rest).assertReset
  | answers running c _ i _ r _ next => exact next ▸ inv.answer running r
  | fails _ c busy i decoded f run records next => exact next ▸ inv.fail busy decoded records (exec_fault_sound run)
  | refuses _ c busy e undecoded next => exact next ▸ inv.refuse busy (reserved_of_decode_error undecoded)

end State.Inv

/-- No step changes `Admitted` (log 12). -/
theorem step_admitted {s t : State} (h : step s = .next t) : t.admitted = s.admitted := by
  cases step_next_cases h <;> subst t <;> rfl

end Machine

end Sys2Proof
end

section
/-! PROOFS, `00_scope.md`: the obligations. -/

namespace Sys2Proof.Proofs

open Sys2Proof.Machine

/-- Settles O23, by the cases of a step. -/
theorem everyStepKeepsTheInvariant : Obligations.EveryStepKeepsTheInvariant :=
  fun _ _ inv h => inv.step h

/-- Settles O19: a launch is made of a legal build, and each field's check says what Table CFG says of it. -/
theorem illegalBuildsAreRefused : Obligations.IllegalBuildsAreRefused := by
  intro cfg bytes admitted script
  have made : (∃ s, State.launch cfg bytes admitted script = .ok s) ↔ cfg.legal = true := by
    simp only [State.launch_eq_ok_iff, exists_and_left, exists_eq, and_true]
  rw [made, Cfg.legal_iff, Cfg.legalF_iff, Cfg.legalSine_iff, Cfg.legalAtan_iff, Cfg.legalGain_iff,
    Cfg.legalInvSqrt3_iff]
  rfl

/-- Settles O22: a launch is a quiet block, and its memory is written byte by byte from the empty one. -/
theorem invariantHoldsAtLaunch : Obligations.InvariantHoldsAtLaunch := by
  intro cfg bytes admitted script s h
  obtain ⟨legal, rfl⟩ := State.launch_eq_ok_iff.1 h
  have wf := Memory.foldl_write_wf (m := []) ⟨.nil, by simp⟩
    (bytes := bytes.filter fun x => decide (x.1 < memoryBytes)) fun x hx => by simpa using (List.mem_filter.1 hx).2
  exact .of_quiet rfl rfl rfl rfl wf legal

/-- Settles O26: the two ends of a command from states that give it the same inputs. -/
theorem commandsDependOnlyOnTheirInputs : Obligations.CommandsDependOnlyOnTheirInputs := by
  intro i s t same
  rcases exec_endAlike i same with ⟨r, hs, ht⟩ | ⟨f, -, hs, ht⟩
  · exact .inl ⟨r.r0, r.r1, hs, ht⟩
  · exact .inr ⟨f, hs, ht⟩

/-- Settles O54, by the cases of a step and the state a launch makes. -/
theorem admittedIsFixedInARun : Obligations.AdmittedIsFixedInARun := by
  refine ⟨fun s t h => step_admitted h, fun cfg bytes admitted script s h => ?_⟩
  obtain ⟨-, rfl⟩ := State.launch_eq_ok_iff.1 h
  rfl

/-- Settles O21: a quiet block with an empty memory and the default build, which is legal. -/
theorem invariantHoldsAtReset : Obligations.InvariantHoldsAtReset :=
  .of_quiet rfl rfl rfl rfl ⟨.nil, by simp [State.reset]⟩ (Cfg.legal_defaultFor (by omega) _)

end Sys2Proof.Proofs
end

section
/-! PROOFS, `10_state.md`: the decoder, as the commands of a run need it (R25, R60, R65, R66). Decoding is inverted once,
in the fields of the command word; that an encoded command decodes to itself, that a decoded one encodes back, and that
a reserved word is refused follow from it. -/

namespace Sys2Proof

open Sys2Proof.Claims

/-- R65, in the fields of the command word. -/
theorem decode_eq_ok_iff (c : Command) (i : Instr) : decode c = .ok i ↔
    rsv1Field c.cmd = 0 ∧ rsv2Field c.cmd = 0 ∧
      ((opcField c.cmd = 0x01 ∧ (fsField c.cmd).toNat ≤ 30 ∧ (fdField c.cmd).toNat ≤ 30 ∧
          i = .conv (fsField c.cmd) (fdField c.cmd) c.a[0]) ∨
        (opcField c.cmd ≠ 0x01 ∧ fsField c.cmd = 0 ∧ fdField c.cmd = 0 ∧
          commandOfOpc (opcField c.cmd) c.a = some i)) := by
  unfold decode
  split_ifs with reserved conv formats spare
  · refine iff_of_false nofun ?_
    tauto
  · refine iff_of_false nofun ?_
    rintro ⟨-, -, ⟨-, fs, fd, -⟩ | ⟨other, -⟩⟩
    · omega
    · exact other conv
  · simp only [not_or, not_not, not_lt] at reserved formats
    simp [reserved, conv, formats, eq_comm]
  · refine iff_of_false nofun ?_
    tauto
  · simp only [not_or, not_not] at reserved spare
    have conv : opcField c.cmd ≠ 1#8 := conv
    split <;> simp [*]

/-- The seven operand slots of a command, written out. -/
theorem toList_slots (a : Vector Word 7) : a.toList = [a[0], a[1], a[2], a[3], a[4], a[5], a[6]] := by
  refine List.ext_getElem (by simp) fun k hk _ => ?_
  rw [Vector.length_toList] at hk
  interval_cases k <;> simp

/-! ### Encoding and decoding -/

/-- A command that an OPC other than CONV's names has a command word with that OPC and no formats, and the first `n(op)`
operand slots for its operand words (R60, R63). -/
theorem encode_of_commandOfOpc {opc : BitVec 8} {a : Vector Word 7} {i : Instr} (h : commandOfOpc opc a = some i) :
    i.wellFormed = true ∧ encode i = commandWord 0 0 opc :: a.toList.take ((operandCount opc).getD 0) := by
  unfold commandOfOpc at h
  split at h
  case h_11 => cases h
  all_goals
    rename_i number
    have value : BitVec.ofNat 8 opc.toNat = opc := by simp
    rw [number] at value
    cases h
    subst value
    exact ⟨rfl, by simp [toList_slots, encode, operandCount]⟩

/-- A decoded command is well-formed, and its words are the accepted command's (R65). -/
theorem encode_of_decode {c : Command} {i : Instr} (h : decode c = .ok i) :
    i.wellFormed = true ∧ encode i = c.words := by
  obtain ⟨rsv1, rsv2, fields⟩ := (decode_eq_ok_iff c i).1 h
  have word := commandWord_fields rsv1 rsv2
  rcases fields with ⟨conv, fs, fd, rfl⟩ | ⟨-, fs, fd, named⟩
  · refine ⟨by simp [Instr.wellFormed, fs, fd], ?_⟩
    rw [conv] at word
    simp only [encode, word, Command.words, conv, toList_slots]
    rfl
  · obtain ⟨wf, words⟩ := encode_of_commandOfOpc named
    rw [fs, fd] at word
    exact ⟨wf, by rw [words, word, Command.words]⟩

/-- The words of a well-formed command, put into the slots, decode to it (R60, R65). -/
theorem decode_ofWords_encode {i : Instr} (wf : i.wellFormed = true) :
    decode (Command.ofWords (encode i)) = .ok i := by
  rw [decode_eq_ok_iff]
  cases i with
  | conv fs fd v => simpa [Command.ofWords, encode, Instr.wellFormed] using wf
  | _ => simp [Command.ofWords, encode, commandOfOpc]

/-! ### Reserved words -/

/-- The OPC values that name a command other than CONV (Table OPC). -/
theorem opc_mem_of_commandOfOpc {opc : BitVec 8} {a : Vector Word 7} {i : Instr} (h : commandOfOpc opc a = some i) :
    opc.toNat ∈ [0x02, 0x03, 0x04, 0x10, 0x11, 0x20, 0x30, 0x40, 0x50, 0x60] := by
  unfold commandOfOpc at h
  split at h
  case h_11 => cases h
  all_goals simp [*]

/-- No word that R66 reserves decodes. -/
theorem not_reservedWord_of_decode {c : Command} {i : Instr} (h : decode c = .ok i) : ¬ ReservedWord c.cmd := by
  obtain ⟨rsv1, rsv2, fields⟩ := (decode_eq_ok_iff c i).1 h
  have rsv1 : c.cmd.toNat / 2 ^ 13 % 2 ^ 3 = 0 := by rw [← rsv1Field_toNat, rsv1]; rfl
  have rsv2 : c.cmd.toNat / 2 ^ 21 = 0 := by
    have : c.cmd.toNat / 2 ^ 21 % 2 ^ 11 = 0 := by rw [← rsv2Field_toNat, rsv2]; rfl
    have := c.cmd.isLt
    omega
  rw [ReservedWord, ← opcField_toNat, ← fsField_toNat, ← fdField_toNat]
  rcases fields with ⟨conv, fs, fd, -⟩ | ⟨other, fs, fd, named⟩
  · have opc : (opcField c.cmd).toNat = 1 := by rw [conv]; rfl
    rw [opc]
    rintro (high | mid | ⟨-, formats⟩ | ⟨other, -⟩ | unnamed)
    · exact high rsv2
    · exact mid rsv1
    · omega
    · exact other rfl
    · simp at unnamed
  · have opc := opc_mem_of_commandOfOpc named
    have other : (opcField c.cmd).toNat ≠ 1 := fun e => other (BitVec.eq_of_toNat_eq e)
    rw [fs, fd]
    rintro (high | mid | ⟨conv, -⟩ | ⟨-, formats⟩ | unnamed)
    · exact high rsv2
    · exact mid rsv1
    · exact other conv
    · simp at formats
    · exact unnamed (List.mem_cons_of_mem _ opc)

/-- A reserved word is refused, whatever its operand slots hold (R66). -/
theorem decode_error_of_reservedWord {c : Command} (reserved : ReservedWord c.cmd) : ∃ e, decode c = .error e := by
  cases h : decode c with
  | error e => exact ⟨e, rfl⟩
  | ok i => exact absurd reserved (not_reservedWord_of_decode h)

end Sys2Proof
end

section
/-! PROOFS, `10_state.md`: one equation for each kind of step, by who moves: a block that serves its command, one that is
stuck, and each of the requester's moves (R25, R69, R192, R193, R197, R210, R214; log 3). -/

namespace Sys2Proof.Machine

open Sys2Proof.Claims

variable {s : State} {c : Command} {cause : StopCause} {rest : List HostMove}

theorem step_of_stopped (stopped : s.stop = some cause) : step s = s.stoppedStep cause := by
  rw [step, stopped]

theorem step_of_idle (running : s.stop = none) (idle : s.phase = .idle) : step s = s.idleStep := by
  rw [step, running]
  simp only [idle]

theorem step_of_busy (running : s.stop = none) (busy : s.phase = .busy c) : step s = s.busyStep c := by
  rw [step, running]
  simp only [busy]

/-! ### The block's step -/

/-- While the requester waits, a busy block serves its command. -/
theorem step_serves (running : s.stop = none) (busy : s.phase = .busy c) (waits : HostWaits s) :
    step s = s.serve c := by
  rw [step_of_busy running busy, State.busyStep]
  rcases waits with script | ⟨cmd, operands, rest, script⟩ | ⟨rest, script⟩ <;> rw [script]

/-- A decoded command is served by its meaning (R25). -/
theorem State.serve_of_decode {i : Instr} (decoded : decode c = .ok i) : s.serve c = exec i s := by
  rw [State.serve, decoded]

/-- A reserved word is refused (R66, R193). -/
theorem State.serve_of_reservedWord (reserved : ReservedWord c.cmd) : s.serve c = .next (s.refuse c.cmd) := by
  obtain ⟨e, undecoded⟩ := decode_error_of_reservedWord reserved
  rw [State.serve, undecoded]

/-- The service of a command ends in a response, in a fault that records the command, or in a refusal (R190). -/
theorem State.serve_ends (s : State) (c : Command) :
    (∃ r, s.serve c = .next (s.answer r)) ∨ (∃ f : CommandFault, f.command = c.words ∧ s.serve c = .next (s.fail f)) ∨
      s.serve c = .next (s.refuse c.cmd) := by
  cases decoded : decode c with
  | error e => exact .inr (.inr (by rw [State.serve, decoded]))
  | ok i =>
    rw [State.serve_of_decode decoded]
    rcases exec_answers_or_fails i s with answers | ⟨f, run, records⟩
    · exact .inl answers
    · exact .inr (.inl ⟨f, records.trans (encode_of_decode decoded).2, run⟩)

theorem State.serve_isNext (s : State) (c : Command) : ∃ t, s.serve c = .next t := by
  rcases s.serve_ends c with ⟨r, e⟩ | ⟨f, -, e⟩ | e <;> exact ⟨_, e⟩

/-- A stopped block is stuck where the requester has a command to issue, or no move left (R192, R193). -/
theorem step_stuck (stopped : s.stop = some cause) (issues : OnlyIssues s) : step s = cause.stuck := by
  rw [step_of_stopped stopped, State.stoppedStep]
  rcases issues with script | ⟨cmd, operands, rest, script⟩ <;> rw [script]

/-! ### The requester's moves -/

/-- A reset is made from every state (R210). -/
theorem step_reset (script : s.script = .reset :: rest) :
    step s = .next (State.assertReset { s with script := rest }) := by
  unfold step
  split
  · rw [State.stoppedStep, script]
  · split
    · rw [State.idleStep, script]
    · rw [State.busyStep, script]

/-- A wait passes where no command is in flight: the block is stopped, or idle (R197, log 3). -/
theorem step_await (ended : s.stop ≠ none ∨ s.phase = .idle) (script : s.script = .await :: rest) :
    step s = .next { s with script := rest } := by
  by_cases running : s.stop = none
  · have idle : s.phase = .idle := ended.resolve_left (not_not.2 running)
    rw [step_of_idle running idle, State.idleStep, script]
  · obtain ⟨cause, stopped⟩ := Option.ne_none_iff_exists'.1 running
    rw [step_of_stopped stopped, State.stoppedStep, script]

/-- The number of bytes a write stores. -/
theorem length_writeBytesOf (width : WriteWidth) (value : Word) :
    (writeBytesOf width value).length = widthBytes width := by
  cases width <;> rfl

/-- A write past the last byte of the address space stops (R40, log 13). -/
theorem State.hostWrite_past (s : State) {width : WriteWidth} {addr : Word} (value : Word)
    (past : 2 ^ 32 < addr.toNat + widthBytes width) : s.hostWrite width addr value = .fault (.noSuchByte (2 ^ 32)) := by
  rw [State.hostWrite, length_writeBytesOf]
  exact if_pos past

/-- A write below it stores its bytes. -/
theorem State.hostWrite_fits (s : State) {width : WriteWidth} {addr : Word} (value : Word)
    (fits : addr.toNat + widthBytes width ≤ 2 ^ 32) : s.hostWrite width addr value =
      .next { s with memory := s.memory.writeBytes addr.toNat (writeBytesOf width value) } := by
  rw [State.hostWrite, length_writeBytesOf]
  exact if_neg (Nat.not_lt.2 fits)

/-- A write into a table of the command in flight stops (R50, log 4). -/
theorem step_write_race {width : WriteWidth} {addr value : Word} (running : s.stop = none) (busy : s.phase = .busy c)
    (script : s.script = .write width addr value :: rest) (touches : writeTouches (commandExtents c) width addr = true) :
    step s = .fault (.tableWriteRace addr.toNat) := by
  rw [step_of_busy running busy, State.busyStep, script]
  exact if_pos touches

/-! ### Issuing a command -/

/-- The state with the command accepted and these moves left to the requester (R25). -/
abbrev State.inFlight (s : State) (c : Command) (moves : List HostMove) : State :=
  State.accept { s with script := moves } c

/-- The requester supplies a copied word exactly when it received it (R69). -/
theorem result_eq_some_iff (s : State) (n slot : Nat) (w : Word) :
    s.result n slot = some w ↔ Supplies s (.result n slot) w := by
  unfold State.result Supplies
  cases received : s.responses[n]? with
  | none => simp [received]
  | some r => rcases slot with _ | _ | slot <;> simp [received, eq_comm]

theorem result_eq_none_iff (s : State) (n slot : Nat) :
    s.result n slot = none ↔ ∀ w, ¬ Supplies s (.result n slot) w := by
  simp only [Option.eq_none_iff_forall_ne_some, ne_eq, result_eq_some_iff]

/-- Operands that have their words put them in front of the words of the others, in slot order. -/
theorem gather_append {operands : List Source} {ws : List Word} (supplied : List.Forall₂ (Supplies s) operands ws)
    (others : List Source) : s.gather (operands ++ others) = (s.gather others).map (ws ++ ·) := by
  induction supplied with
  | nil =>
    cases h : s.gather others <;> simp [h, Except.map]
  | @cons x w operands ws first _ ih =>
    have head : s.gather (x :: (operands ++ others)) = (s.gather (operands ++ others)).map (w :: ·) := by
      apply State.gather_cons
      cases x with
      | word v => exact first.symm
      | result n slot => exact (result_eq_some_iff s n slot w).2 first
    rw [List.cons_append, head, ih]
    cases h : s.gather others <;> simp [Except.map]

theorem gather_of_supplies {operands : List Source} {ws : List Word}
    (supplied : List.Forall₂ (Supplies s) operands ws) : s.gather operands = .ok ws := by
  have h := gather_append supplied []
  rw [List.append_nil] at h
  rw [h]
  simp [State.gather, Except.map]

/-- Operands that are the requester's own words are these words. -/
theorem gather_words (s : State) (ws : List Word) : s.gather (ws.map .word) = .ok ws := by
  apply gather_of_supplies
  rw [List.forall₂_map_left_iff, List.forall₂_same]
  exact fun w _ => rfl

/-- Gathering fails on an operand that copies a word the requester never received (log 15). -/
theorem gather_error {operands : List Source} {f : Fault} (h : s.gather operands = .error f) :
    ∃ n slot, f = .noSuchResult n slot ∧ .result n slot ∈ operands ∧ ∀ w, ¬ Supplies s (.result n slot) w := by
  induction operands with
  | nil => cases h
  | cons x others ih =>
    have later (e : s.gather others = .error f) : ∃ n slot, f = .noSuchResult n slot ∧
        .result n slot ∈ x :: others ∧ ∀ w, ¬ Supplies s (.result n slot) w := by
      obtain ⟨n, slot, e, mem, never⟩ := ih e
      exact ⟨n, slot, e, List.mem_cons_of_mem _ mem, never⟩
    cases x with
    | word v =>
      simp only [State.gather] at h
      split at h
      · cases h
        exact later ‹_›
      · cases h
    | result n slot =>
      simp only [State.gather] at h
      split at h
      · rename_i never
        cases h
        exact ⟨n, slot, rfl, List.mem_cons_self .., (result_eq_none_iff s n slot).1 never⟩
      · split at h
        · cases h
          exact later ‹_›
        · cases h

/-- What the requester received does not depend on the moves it has left. -/
theorem gather_withScript (s : State) (moves : List HostMove) (operands : List Source) :
    State.gather { s with script := moves } operands = s.gather operands := by
  induction operands with
  | nil => rfl
  | cons x others ih => cases x <;> simp only [State.gather, State.result, ih]

section
variable {cmd : Word} {operands : List Source} (running : s.stop = none) (idle : s.phase = .idle)
  (script : s.script = .issue cmd operands :: rest)
include running idle script

/-- A running idle block accepts the command that the requester issues (R25, R214). -/
theorem step_issue {ws : List Word} (gathered : s.gather operands = .ok ws) :
    step s = .next (s.inFlight (Command.ofWords (cmd :: ws)) rest) := by
  rw [step_of_idle running idle, State.idleStep, script]
  simp only [State.hostIssue, gather_withScript, gathered]

/-- A command that copies a word the requester never received is not issued (log 15). -/
theorem step_issue_missing {f : Fault} (missing : s.gather operands = .error f) : step s = .fault f := by
  rw [step_of_idle running idle, State.idleStep, script]
  simp only [State.hostIssue, gather_withScript, missing]

end

/-- `issueOf` issues the command's own words. -/
theorem issueOf_eq_issue (i : Instr) :
    ∃ cmd operands, encode i = cmd :: operands ∧ issueOf i = .issue cmd (operands.map .word) := by
  cases i <;> exact ⟨_, _, rfl, rfl⟩

/-- A command's own words, issued, are the command the block accepts. -/
theorem step_issueOf {i : Instr} (running : s.stop = none) (idle : s.phase = .idle)
    (script : s.script = issueOf i :: rest) :
    step s = .next (s.inFlight (Command.ofWords (encode i)) rest) := by
  obtain ⟨cmd, operands, words, move⟩ := issueOf_eq_issue i
  rw [words]
  exact step_issue running idle (script.trans (by rw [move])) (gather_words s operands)

end Sys2Proof.Machine
end

section
/-! PROOFS, `10_state.md`: runs (R25, R35, R49, R211, R215). A command ends as it would in any state that gives it the
same inputs; a command issued to an idle block is served in the next step; and every step uses up one of the steps that
the requester's moves and a command in flight leave to a run. -/

namespace Sys2Proof.Machine

open Sys2Proof.Claims

/-! ### A command runs alike where its inputs are the same -/

section
variable {s t : State} {i : Instr}

/-- The build and the bytes are all that a command reads of a state. -/
theorem exec_answer_of_same {r : Response} (run : exec i s = .next (s.answer r)) (cfg : s.cfg = t.cfg)
    (bytes : ∀ addr, s.byteAt addr = t.byteAt addr) : exec i t = .next (t.answer r) := by
  rcases exec_endAlike i (⟨cfg, fun addr _ => bytes addr⟩ : s.SameInputs t (instrExtents i)) with
    ⟨r', e, e'⟩ | ⟨f, -, e, -⟩
  · have received := congrArg State.responses (Host.Outcome.next.inj (run.symm.trans e))
    have : r = r' := by simpa using received
    exact this ▸ e'
  · have received := congrArg State.responses (Host.Outcome.next.inj (run.symm.trans e))
    simp at received

theorem exec_fail_of_same {f : CommandFault} (run : exec i s = .next (s.fail f)) (cfg : s.cfg = t.cfg)
    (bytes : ∀ addr, s.byteAt addr = t.byteAt addr) : exec i t = .next (t.fail f) := by
  rcases exec_endAlike i (⟨cfg, fun addr _ => bytes addr⟩ : s.SameInputs t (instrExtents i)) with
    ⟨r, e, -⟩ | ⟨g, -, e, e'⟩
  · have recorded := congrArg State.faultRecord (Host.Outcome.next.inj (run.symm.trans e))
    simp at recorded
  · have recorded := congrArg State.faultRecord (Host.Outcome.next.inj (run.symm.trans e))
    have : f = g := by simpa using recorded
    exact this ▸ e'

end

/-- A command in flight is answered as its meaning answers it at the issue. -/
theorem State.serve_inFlight_answer {s : State} {i : Instr} {r : Response} (wf : i.wellFormed = true)
    (run : exec i s = .next (s.answer r)) (moves : List HostMove) :
    (s.inFlight (Command.ofWords (encode i)) moves).serve (Command.ofWords (encode i)) =
      .next ((s.inFlight (Command.ofWords (encode i)) moves).answer r) := by
  rw [State.serve_of_decode (decode_ofWords_encode wf)]
  exact exec_answer_of_same run rfl fun _ => rfl

theorem State.serve_inFlight_fail {s : State} {i : Instr} {f : CommandFault} (wf : i.wellFormed = true)
    (run : exec i s = .next (s.fail f)) (moves : List HostMove) :
    (s.inFlight (Command.ofWords (encode i)) moves).serve (Command.ofWords (encode i)) =
      .next ((s.inFlight (Command.ofWords (encode i)) moves).fail f) := by
  rw [State.serve_of_decode (decode_ofWords_encode wf)]
  exact exec_fail_of_same run rfl fun _ => rfl

/-! ### Runs of several steps -/

theorem run_succ {s t : State} (h : step s = .next t) (k : Nat) : core.run (k + 1) s = core.run k t := by
  have h : core.step s = .next t := h
  simp only [Host.Core.run, h]

/-- A command that the block accepts while the requester waits is served in the step after it (log 2). -/
theorem run_served {s t : State} {c : Command} {moves : List HostMove} (issued : step s = .next (s.inFlight c moves))
    (running : s.stop = none) (waits : HostWaits { s with script := moves })
    (served : (s.inFlight c moves).serve c = .next t) (k : Nat) : core.run (k + 2) s = core.run k t := by
  have serves : step (s.inFlight c moves) = (s.inFlight c moves).serve c := step_serves running rfl waits
  rw [run_succ issued, run_succ (serves.trans served)]

/-- A well-formed command is issued and answered in two steps. -/
theorem run_answered {s : State} {i : Instr} {r : Response} {rest : List HostMove} (running : s.stop = none)
    (idle : s.phase = .idle) (wf : i.wellFormed = true) (script : s.script = issueOf i :: rest)
    (waits : HostWaits { s with script := rest }) (run : exec i s = .next (s.answer r)) (k : Nat) :
    core.run (k + 2) s = core.run k (State.answer { s with script := rest } r) :=
  run_served (step_issueOf running idle script) running waits (State.serve_inFlight_answer wf run rest) k

/-- A requester with a list of commands to issue waits while one is in flight. -/
theorem hostWaits_of_commands {s : State} {is : List Instr} (script : s.script = is.map issueOf) : HostWaits s := by
  cases is with
  | nil => exact .inl script
  | cons i is =>
    obtain ⟨cmd, operands, -, move⟩ := issueOf_eq_issue i
    exact .inr (.inl ⟨cmd, _, _, by rw [script, List.map_cons, move]⟩)

/-- From every state, a reset and then a command take three steps, and the command is answered as at the start (R210). -/
theorem run_reset_answered {s : State} {j : Instr} {r : Response} (wf : j.wellFormed = true)
    (script : s.script = [.reset, issueOf j]) (run : exec j s = .next (s.answer r)) :
    core.run 3 s = .next (State.answer (State.assertReset { s with script := [] }) r) := by
  rw [run_succ (step_reset script)]
  exact run_answered (s := State.assertReset { s with script := [issueOf j] }) rfl rfl wf rfl (.inl rfl)
    (exec_answer_of_same run rfl fun _ => rfl) 0

/-- A command that stops the block is issued and served in two steps; the requester waits, sees the block stop, and goes
on with a reset and a command (R192, R193, R197, R210). -/
theorem run_stop_reset_answered {s t : State} {c : Command} {j : Instr} {r : Response}
    (issued : step s = .next (s.inFlight c [.await, .reset, issueOf j])) (running : s.stop = none)
    (served : (s.inFlight c [.await, .reset, issueOf j]).serve c = .next t) (stopped : t.stop ≠ none)
    (script : t.script = [.await, .reset, issueOf j]) (wf : j.wellFormed = true) (run : exec j t = .next (t.answer r)) :
    core.run 6 s = .next (State.answer (State.assertReset { t with script := [] }) r) := by
  rw [run_served issued running (.inr (.inr ⟨_, rfl⟩)) served, run_succ (step_await (.inl stopped) script)]
  exact run_reset_answered wf rfl (exec_answer_of_same run rfl fun _ => rfl)

/-- Commands that their meanings answer at the start are answered in issue order (R215). -/
theorem run_commands {s : State} {cs : List (Instr × Response)} (running : s.stop = none) (idle : s.phase = .idle)
    (script : s.script = cs.map fun p => issueOf p.1)
    (answers : ∀ p ∈ cs, p.1.wellFormed = true ∧ exec p.1 s = .next (s.answer p.2)) :
    core.run (2 * cs.length) s =
      .next { s with script := [], responses := s.responses ++ cs.map (·.2),
                     unanswered := if cs = [] then s.unanswered else false } := by
  induction cs generalizing s with
  | nil =>
    have : s.script = [] := script
    simp [Host.Core.run, ← this]
  | cons p cs ih =>
    obtain ⟨wf, run⟩ := answers p (List.mem_cons_self ..)
    have waits : HostWaits { s with script := cs.map fun p => issueOf p.1 } :=
      hostWaits_of_commands (is := cs.map (·.1)) (by simp)
    rw [List.length_cons, Nat.mul_succ, run_answered running idle wf script waits run, ih]
    · simp [State.answer, idle]
    · exact running
    · rfl
    · rfl
    · intro q hq
      obtain ⟨wf, run⟩ := answers q (List.mem_cons_of_mem _ hq)
      exact ⟨wf, exec_answer_of_same run rfl fun _ => rfl⟩

/-! ### Runs that end -/

/-- The steps that the moves of the requester and a command in flight leave to a run: two a move, and one for the
command. -/
def State.stepsLeft (s : State) : Nat :=
  2 * s.script.length + if s.stop = none ∧ s.phase ≠ .idle then 1 else 0

theorem State.stepsLeft_le (s : State) : s.stepsLeft ≤ 2 * s.script.length + 1 := by
  unfold State.stepsLeft
  split <;> omega

/-- A move of the requester leaves fewer steps, whatever it does. -/
theorem stepsLeft_lt_of_move {s t : State} {m : HostMove} (script : s.script = m :: t.script) :
    t.stepsLeft < s.stepsLeft := by
  have before : 2 * s.script.length ≤ s.stepsLeft := Nat.le_add_right ..
  have after := t.stepsLeft_le
  rw [script, List.length_cons] at before
  omega

/-- The end of a command leaves fewer steps. -/
theorem stepsLeft_lt_of_end {s t : State} {c : Command} (running : s.stop = none) (busy : s.phase = .busy c)
    (script : t.script = s.script) (ended : t.stop ≠ none ∨ t.phase = .idle) : t.stepsLeft < s.stepsLeft := by
  have quiet : ¬ (t.stop = none ∧ t.phase ≠ .idle) := by tauto
  simp [State.stepsLeft, quiet, script, running, busy]

/-- Every step of a run that is not at rest leaves fewer steps. -/
theorem stepsLeft_lt {s t : State} (h : step s = .next t) (moving : ¬ AtRest s) : t.stepsLeft < s.stepsLeft := by
  cases step_next_cases h with
  | waits running idle script next => exact absurd (.inl ⟨script, running, idle⟩) moving
  | issues _ _ cmd operands rest script ws _ next => exact stepsLeft_lt_of_move (script.trans (by rw [next]; rfl))
  | moves _ rest script next => exact stepsLeft_lt_of_move (script.trans (by rw [next]))
  | writes width addr value rest script _ _ next => exact stepsLeft_lt_of_move (script.trans (by rw [next]))
  | resets rest script next => exact stepsLeft_lt_of_move (script.trans (by rw [next]; rfl))
  | answers running c busy i _ r _ next => exact next ▸ stepsLeft_lt_of_end running busy rfl (.inr rfl)
  | fails running c busy i _ f _ _ next => exact next ▸ stepsLeft_lt_of_end running busy rfl (.inl nofun)
  | refuses running c busy e _ next => exact next ▸ stepsLeft_lt_of_end running busy rfl (.inl nofun)

/-- A stopped block whose requester does not restart it is at rest (R192, R193). -/
theorem atRest_of_stuck {s : State} {cause : StopCause} (stopped : s.stop = some cause) (issues : OnlyIssues s) :
    AtRest s := by
  have stuck := step_stuck stopped issues
  cases cause with
  | fault f => exact .inr (.inl ⟨f, stopped, issues, stuck⟩)
  | refusal cmd => exact .inr (.inr (.inl ⟨cmd, stopped, issues, stuck⟩))

/-- A write is made, or the run is at rest before it (log 4, log 13). -/
theorem step_write_next_or_atRest {s : State} {width : WriteWidth} {addr value : Word} {rest : List HostMove}
    (script : s.script = .write width addr value :: rest) : (∃ t, step s = .next t) ∨ AtRest s := by
  by_cases race : ∃ c, s.stop = none ∧ s.phase = .busy c ∧ writeTouches (commandExtents c) width addr = true
  · obtain ⟨c, running, busy, touches⟩ := race
    have stops := step_write_race running busy script touches
    exact .inr (.inr (.inr (.inr (.inl ⟨_, _, _, _, script, .inl ⟨⟨c, busy⟩, running, stops⟩⟩))))
  · have writes := step_write script fun c running busy => by
      rw [← Bool.not_eq_true]
      exact fun touches => race ⟨c, running, busy, touches⟩
    rcases Nat.lt_or_ge (2 ^ 32) (addr.toNat + widthBytes width) with past | fits
    · rw [State.hostWrite_past _ value past] at writes
      exact .inr (.inr (.inr (.inr (.inl ⟨_, _, _, _, script, .inr ⟨past, writes⟩⟩))))
    · exact .inl ⟨_, writes.trans (State.hostWrite_fits _ value fits)⟩

/-- An idle block accepts the command that is issued, or the run is at rest before a copy of a word never received
(log 15). -/
theorem step_issue_next_or_atRest {s : State} {cmd : Word} {operands : List Source} {rest : List HostMove}
    (running : s.stop = none) (idle : s.phase = .idle) (script : s.script = .issue cmd operands :: rest) :
    (∃ t, step s = .next t) ∨ AtRest s := by
  cases gathered : s.gather operands with
  | ok ws => exact .inl ⟨_, step_issue running idle script gathered⟩
  | error f =>
    obtain ⟨n, slot, rfl, copied, never⟩ := gather_error gathered
    have missing := step_issue_missing running idle script gathered
    exact .inr (.inr (.inr (.inr (.inr ⟨_, _, _, _, _, script, idle, running, copied, never, missing⟩))))

/-- A run goes on unless it is at rest: the requester moves where it can, and otherwise the block does. -/
theorem step_next_or_atRest (s : State) : (∃ t, step s = .next t) ∨ AtRest s := by
  have block (waits : HostWaits s) {c : Command} (running : s.stop = none) (busy : s.phase = .busy c) :
      ∃ t, step s = .next t := step_serves running busy waits ▸ s.serve_isNext c
  rcases script : s.script with _ | ⟨_ | _ | _ | _, rest⟩
  case nil =>
    rcases stop : s.stop with _ | cause
    · rcases phase : s.phase with _ | c
      · exact .inr (.inl ⟨script, stop, phase⟩)
      · exact .inl (block (.inl script) stop phase)
    · exact .inr (atRest_of_stuck stop (.inl script))
  case issue cmd operands =>
    rcases stop : s.stop with _ | cause
    · rcases phase : s.phase with _ | c
      · exact step_issue_next_or_atRest stop phase script
      · exact .inl (block (.inr (.inl ⟨_, _, _, script⟩)) stop phase)
    · exact .inr (atRest_of_stuck stop (.inr ⟨_, _, _, script⟩))
  case write width addr value => exact step_write_next_or_atRest script
  case reset => exact .inl ⟨_, step_reset script⟩
  case await =>
    by_cases ended : s.stop ≠ none ∨ s.phase = .idle
    · exact .inl ⟨_, step_await ended script⟩
    · rw [not_or, not_not] at ended
      obtain ⟨running, inFlight⟩ := ended
      rcases phase : s.phase with _ | c
      · exact absurd phase inFlight
      · exact .inl (block (.inr (.inr ⟨_, script⟩)) running phase)

/-- From every state a run comes to rest within the steps left to it. -/
theorem run_comes_to_rest (s : State) : ∃ k ≤ s.stepsLeft, ∃ t, core.run k s = .next t ∧ AtRest t := by
  by_cases rests : AtRest s
  · exact ⟨0, Nat.zero_le _, s, rfl, rests⟩
  · obtain ⟨t, next⟩ := (step_next_or_atRest s).resolve_right rests
    have fewer : t.stepsLeft < s.stepsLeft := stepsLeft_lt next rests
    obtain ⟨k, hk, u, run, rests⟩ := run_comes_to_rest t
    exact ⟨k + 1, by omega, u, (run_succ next k).trans run, rests⟩
termination_by s.stepsLeft

end Sys2Proof.Machine
end

section
/-! PROOFS, `10_state.md`: the obligations. -/

namespace Sys2Proof.Proofs

open Sys2Proof.Machine Sys2Proof.Claims

/-! ### Steps -/

/-- Settles O1: a waiting requester leaves the step to the block, which runs what it decoded. -/
theorem stepRunsTheAcceptedCommand : Obligations.StepRunsTheAcceptedCommand := by
  intro s c i running busy waits decoded
  exact ⟨(encode_of_decode decoded).1, (step_serves running busy waits).trans (State.serve_of_decode decoded)⟩

/-- Settles O2: the placed command is in flight, and the requester awaits its response. -/
theorem placedCommandRunsNext : Obligations.PlacedCommandRunsNext := by
  intro s nbits w i placed
  have decoded : decode (commandOfBits nbits w) = .ok i := by
    unfold decodeTableWord at placed
    split at placed
    · rename_i j decoded
      cases placed
      exact decoded
    · cases placed
  exact (stepRunsTheAcceptedCommand _ _ i rfl rfl (.inr (.inr ⟨s.script, rfl⟩)) decoded).2

/-- Settles O8: the requester's moves at a stopped block, and then the cases of a step that a stopped block can make. -/
theorem stoppedBlockWaitsForReset : Obligations.StoppedBlockWaitsForReset := by
  intro s cause stopped
  refine ⟨fun issues => ?_, fun rest script => step_await (.inl (by simp [stopped])) script,
    fun rest script => step_reset script, fun t h => ?_⟩
  · rw [step_stuck stopped issues]
    cases cause <;> rfl
  · have not_running : s.stop ≠ none := by simp [stopped]
    cases step_next_cases h with
    | waits running => exact absurd running not_running
    | issues running => exact absurd running not_running
    | moves _ rest _ next => exact .inr (next ▸ ⟨rfl, rfl, rfl, rfl⟩)
    | writes _ _ _ rest _ _ _ next => exact .inr (next ▸ ⟨rfl, rfl, rfl, rfl⟩)
    | resets rest script next => exact .inl ⟨rest, script, next⟩
    | answers running => exact absurd running not_running
    | fails running => exact absurd running not_running
    | refuses running => exact absurd running not_running

/-- Settles O10, by the cases of a step and the state a launch makes. -/
theorem buildAndRomsNeverChange : Obligations.BuildAndRomsNeverChange := by
  refine ⟨fun s t h => ?_, fun cfg bytes admitted script s h => ?_⟩
  · cases step_next_cases h <;> subst t <;> rfl
  · obtain ⟨-, rfl⟩ := State.launch_eq_ok_iff.1 h
    rfl

/-- Settles O12: the two ends of a command, and what the updates of each leave unchanged. -/
theorem commandsChangeOnlyTheInterface : Obligations.CommandsChangeOnlyTheInterface := by
  intro i s t h
  rcases exec_answers_or_fails i s with ⟨r, run⟩ | ⟨f, run, records⟩
  · obtain rfl : s.answer r = t := Host.Outcome.next.inj (run.symm.trans h)
    exact ⟨rfl, fun _ => rfl, rfl, rfl, rfl, rfl, .inl ⟨r.r0, r.r1, rfl⟩⟩
  · obtain rfl : s.fail f = t := Host.Outcome.next.inj (run.symm.trans h)
    exact ⟨rfl, fun _ => rfl, rfl, rfl, rfl, rfl, .inr ⟨f, records, rfl⟩⟩

/-- Settles O13: the block's step is the service of its command, which has three ends. -/
theorem everyCommandEndsInOneStep : Obligations.EveryCommandEndsInOneStep := by
  intro s c running busy waits
  have serves := step_serves running busy waits
  rcases s.serve_ends c with ⟨r, run⟩ | ⟨f, records, run⟩ | run
  · exact ⟨_, serves.trans run, .inl ⟨r.r0, r.r1, rfl⟩⟩
  · exact ⟨_, serves.trans run, .inr (.inl ⟨f, records, rfl⟩)⟩
  · exact ⟨_, serves.trans run, .inr (.inr rfl)⟩

/-- Settles O14: only an issue makes an idle block busy; every other step keeps the phase or makes it `Idle`. -/
theorem commandsAreAcceptedOnlyInIdle : Obligations.CommandsAreAcceptedOnlyInIdle := by
  intro s t c h busy new
  have not_kept (kept : t.phase = s.phase) : False := new (kept ▸ busy)
  have not_idle (idle : t.phase = .idle) : False := by simp [idle] at busy
  cases step_next_cases h with
  | issues running idle cmd operands rest script ws _ next =>
    subst next
    cases busy
    exact ⟨idle, running, operands, rest, script, rfl⟩
  | waits _ _ _ next => exact (not_kept (next ▸ rfl)).elim
  | moves _ _ _ next => exact (not_kept (next ▸ rfl)).elim
  | writes _ _ _ _ _ _ _ next => exact (not_kept (next ▸ rfl)).elim
  | resets _ _ next => exact (not_idle (next ▸ rfl)).elim
  | answers _ _ _ _ _ _ _ next => exact (not_idle (next ▸ rfl)).elim
  | fails _ _ _ _ _ _ _ _ next => exact (not_kept (next ▸ rfl)).elim
  | refuses _ _ _ _ _ next => exact (not_kept (next ▸ rfl)).elim

/-- Settles O18: operands are gathered in slot order, up to the first that has no word. -/
theorem resultWordsAreCopied : Obligations.ResultWordsAreCopied := by
  intro s cmd rest running idle
  refine ⟨fun operands ws script supplied => step_issue running idle script (gather_of_supplies supplied),
    fun before after ws n slot script supplied never => step_issue_missing running idle script ?_⟩
  rw [gather_append supplied, State.gather_missing _ _ _ _ ((result_eq_none_iff s n slot).2 never)]
  rfl

/-- Settles O57: the service of the last command appends its response and leaves nothing owed. -/
theorem lastResponseEndsTheRun : Obligations.LastResponseEndsTheRun := by
  intro s c i r running busy waits issued record mark decoded run
  have answers := (stepRunsTheAcceptedCommand s c i running busy waits decoded).2.trans run
  exact ⟨_, answers, ⟨issued, rfl, rfl, record, mark⟩, rfl⟩

/-! ### Runs -/

/-- Settles O24, by induction over the commands. -/
theorem runOfCommandsAnswersInOrder : Obligations.RunOfCommandsAnswersInOrder :=
  fun _ _ running idle script answers => run_commands running idle script answers

/-- Settles O25: the steps left to a run are at most two a move and one more. -/
theorem everyScriptRunsOut : Obligations.EveryScriptRunsOut := by
  intro s
  obtain ⟨k, hk, t, run, rests⟩ := run_comes_to_rest s
  exact ⟨k, hk.trans s.stepsLeft_le, t, run, rests⟩

/-- Settles O56: the first command stops the block in two steps, or is in flight after one, and the rest of the run is a
reset and a command. -/
theorem resetRestartsTheRun : Obligations.ResetRestartsTheRun := by
  intro s j r running idle wf run
  refine ⟨fun i f wf_i faults script => ?_, fun cmd ws reserved script => ?_, fun i script => ?_⟩
  · rw [run_stop_reset_answered (step_issueOf running idle script) running (State.serve_inFlight_fail wf_i faults _)
      nofun rfl wf (exec_answer_of_same run rfl fun _ => rfl)]
    simp [State.answer, State.assertReset, State.fail, State.accept, running, idle]
  · rw [run_stop_reset_answered (step_issue running idle script (gather_words s ws)) running
      (State.serve_of_reservedWord reserved) nofun rfl wf (exec_answer_of_same run rfl fun _ => rfl)]
    simp [State.answer, State.assertReset, State.refuse, State.accept, Command.ofWords, running, idle]
  · rw [run_succ (step_issueOf running idle script),
      run_reset_answered (s := s.inFlight _ _) wf rfl (exec_answer_of_same run rfl fun _ => rfl)]
    simp [State.answer, State.assertReset, State.accept, running, idle]

end Sys2Proof.Proofs
end

section
/-! PROOFS, `20_memory.md`: the bytes of a word, in table memory's order (R41). -/

namespace Sys2Proof.Machine

open Sys2Proof.Claims

/-- Byte `k` of a word is its digit `k` to the base 256 (R41). -/
theorem byteOfWord_eq_ofNat (w : Word) (k : Nat) : byteOfWord w k = BitVec.ofNat 8 (w.toNat / 256 ^ k) := by
  rw [byteOfWord, BitVec.extractLsb', Nat.shiftRight_eq_div_pow, Nat.pow_mul]

/-- A word moved down by whole bytes has the bytes from there upward. -/
theorem byteOfWord_ushiftRight (w : Word) (offset k : Nat) :
    byteOfWord (w >>> (8 * offset)) k = byteOfWord w (offset + k) := by
  simp only [byteOfWord_eq_ofNat, BitVec.toNat_ushiftRight, Nat.shiftRight_eq_div_pow, Nat.pow_mul, Nat.pow_add,
    Nat.div_div_eq_div_mul]

theorem toNat_wordOfBytes (b0 b1 b2 b3 : Byte) : (wordOfBytes b0 b1 b2 b3).toNat =
    b0.toNat + 2 ^ 8 * b1.toNat + 2 ^ 16 * b2.toNat + 2 ^ 24 * b3.toNat := by
  simp only [wordOfBytes, toNat_append_eq]
  ring

/-- A word is made of its four bytes. -/
theorem wordOfBytes_byteOfWord (w : Word) :
    wordOfBytes (byteOfWord w 0) (byteOfWord w 1) (byteOfWord w 2) (byteOfWord w 3) = w := by
  refine BitVec.eq_of_toNat_eq ?_
  simp only [toNat_wordOfBytes, byteOfWord_eq_ofNat, BitVec.toNat_ofNat]
  omega

/-- A write stores the low bytes of its value, the lowest first (R55). -/
theorem getElem_writeBytesOf (width : WriteWidth) (value : Word) {k : Nat}
    (h : k < (writeBytesOf width value).length) : (writeBytesOf width value)[k] = byteOfWord value k := by
  rw [length_writeBytesOf] at h
  cases width with
  | byte =>
    obtain rfl : k = 0 := Nat.lt_one_iff.1 h
    rfl
  | half =>
    obtain rfl | rfl : k = 0 ∨ k = 1 := by simp only [widthBytes] at h; omega
    · rfl
    · rfl
  | word =>
    obtain rfl | rfl | rfl | rfl : k = 0 ∨ k = 1 ∨ k = 2 ∨ k = 3 := by simp only [widthBytes] at h; omega
    · rfl
    · rfl
    · rfl
    · rfl

end Sys2Proof.Machine
end

section
/-! PROOFS, `20_memory.md`: `MemRead`, one equation for each outcome of its rule (R43). -/

namespace Sys2Proof.Machine

open Sys2Proof.Claims

variable {s : State} {addr : Nat}

/-- A byte has a value where it is admitted and written (R40). -/
theorem State.byteAt_eq_some_iff {b : Byte} : s.byteAt addr = some b ↔ ByteIs s addr b := by
  simp [State.byteAt, State.admits, ByteIs, Region.holds_iff]

theorem State.memRead_misaligned (misaligned : addr % 4 ≠ 0) : s.memRead addr = .error ⟨addr, .misaligned⟩ :=
  if_pos misaligned

theorem State.memRead_outOfRange (aligned : addr % 4 = 0) (past : addr + 3 > 2 ^ 32 - 1) :
    s.memRead addr = .error ⟨addr, .outOfRange⟩ := by
  rw [State.memRead, if_neg (not_not.2 aligned)]
  exact if_pos past

theorem State.memRead_notAdmitted (aligned : addr % 4 = 0) (inside : addr + 3 ≤ 2 ^ 32 - 1)
    (missing : ∃ k < 4, ∀ b, ¬ ByteIs s (addr + k) b) : s.memRead addr = .error ⟨addr, .notAdmitted⟩ := by
  rw [State.memRead, if_neg (not_not.2 aligned), if_neg (Nat.not_lt.2 inside)]
  split
  next b0 b1 b2 b3 h0 h1 h2 h3 =>
    obtain ⟨k, hk, none_at_k⟩ := missing
    simp only [← State.byteAt_eq_some_iff] at none_at_k
    obtain rfl | rfl | rfl | rfl : k = 0 ∨ k = 1 ∨ k = 2 ∨ k = 3 := by omega
    · exact absurd h0 (none_at_k b0)
    · exact absurd h1 (none_at_k b1)
    · exact absurd h2 (none_at_k b2)
    · exact absurd h3 (none_at_k b3)
  next => rfl

theorem State.memRead_of_byteIs {b0 b1 b2 b3 : Byte} (aligned : addr % 4 = 0) (inside : addr + 3 ≤ 2 ^ 32 - 1)
    (h0 : ByteIs s addr b0) (h1 : ByteIs s (addr + 1) b1) (h2 : ByteIs s (addr + 2) b2) (h3 : ByteIs s (addr + 3) b3) :
    s.memRead addr = .ok (wordOfBytes b0 b1 b2 b3).toInt := by
  rw [← State.byteAt_eq_some_iff] at h0 h1 h2 h3
  rw [State.memRead, if_neg (not_not.2 aligned), if_neg (Nat.not_lt.2 inside), h0, h1, h2, h3]
  rfl

/-- A word whose four bytes are admitted and stand in memory is the word that is read. -/
theorem State.memRead_of_stored {addr value : Word} (aligned : addr.toNat % 4 = 0)
    (admitted : ∀ k < 4, ∃ r ∈ s.admitted, r.base ≤ addr.toNat + k ∧ addr.toNat + k < r.base + r.size)
    (stored : ∀ k < 4, s.memory.read (addr.toNat + k) = some (byteOfWord value k)) :
    s.memRead addr.toNat = .ok value.toInt := by
  have byteIs : ∀ k < 4, ByteIs s (addr.toNat + k) (byteOfWord value k) := fun k hk => ⟨admitted k hk, stored k hk⟩
  rw [State.memRead_of_byteIs aligned (by omega) (byteIs 0 (by omega)) (byteIs 1 (by omega)) (byteIs 2 (by omega))
    (byteIs 3 (by omega)), wordOfBytes_byteOfWord]

end Sys2Proof.Machine
end

section
/-! PROOFS, `20_memory.md`: the requester's writes: what each leaves in table memory, the step that makes it, and a word
that is written in pieces (R42, R50, R55, R214). -/

namespace Sys2Proof.Machine

open Sys2Proof.Claims

variable {s : State} {width : WriteWidth} {addr value : Word} {rest : List HostMove}

theorem read_written (m : Memory) (base : Nat) (value : Word) {k : Nat} (h : k < widthBytes width) :
    (m.writeBytes base (writeBytesOf width value)).read (base + k) = some (byteOfWord value k) := by
  rw [← length_writeBytesOf width value] at h
  rw [Memory.read_writeBytes_inside m _ h, getElem_writeBytesOf]

theorem read_unwritten (m : Memory) {base a : Nat} (value : Word) (h : a < base ∨ base + widthBytes width ≤ a) :
    (m.writeBytes base (writeBytesOf width value)).read a = m.read a :=
  Memory.read_writeBytes_outside m _ (by rwa [length_writeBytesOf])

/-- A write touches the regions that one of its bytes lies in (R47). -/
theorem writeTouches_iff (regions : List Region) : writeTouches regions width addr = true ↔
    ∃ k < widthBytes width, ∃ r ∈ regions, r.base ≤ addr.toNat + k ∧ addr.toNat + k < r.base + r.size := by
  simp [writeTouches, length_writeBytesOf, Region.holds_iff, uint32]

/-- A running busy block lets the requester write where no byte lies in a table of its command (R50). -/
theorem mayWrite_of_apart {c : Command} {base n : Nat} (busy : s.phase = .busy c)
    (apart : ∀ k < n, ∀ r ∈ commandExtents c, ¬ (r.base ≤ base + k ∧ base + k < r.base + r.size)) :
    MayWrite s base n := by
  intro c' _ busy'
  obtain rfl : c = c' := Phase.busy.inj (busy.symm.trans busy')
  exact apart

/-- Where a run of bytes may be written, so may each part of it. -/
theorem MayWrite.part {base n offset size : Nat} (may : MayWrite s base n) (inside : offset + size ≤ n) :
    MayWrite s (base + offset) size := by
  intro c running busy k hk r hr
  rw [Nat.add_assoc]
  exact may c running busy (offset + k) (by omega) r hr

/-- The step of a write that touches no table in flight is the requester's alone. -/
theorem step_write_of_mayWrite (script : s.script = .write width addr value :: rest)
    (may : MayWrite s addr.toNat (widthBytes width)) :
    step s = State.hostWrite { s with script := rest } width addr value := by
  refine step_write script fun c running busy => ?_
  rw [← Bool.not_eq_true, writeTouches_iff]
  rintro ⟨k, hk, r, hr, touches⟩
  exact may c running busy k hk r hr touches

/-- Inside the address space the write is made. -/
theorem step_write_fits (script : s.script = .write width addr value :: rest)
    (may : MayWrite s addr.toNat (widthBytes width)) (fits : addr.toNat + widthBytes width ≤ 2 ^ 32) :
    step s =
      .next { s with script := rest, memory := s.memory.writeBytes addr.toNat (writeBytesOf width value) } := by
  rw [step_write_of_mayWrite script may, State.hostWrite_fits _ value fits]

/-! ### A word written in pieces -/

/-- A part of a word: how wide it is, and at which of the word's bytes it begins. -/
structure Piece where
  width : WriteWidth
  offset : Nat

/-- The piece holds byte `k` of the word. -/
abbrev Piece.Covers (p : Piece) (k : Nat) : Prop := p.offset ≤ k ∧ k < p.offset + widthBytes p.width

/-- The move that writes the piece of the word `value` at `addr`. -/
def Piece.move (addr value : Word) (p : Piece) : HostMove :=
  .write p.width (addr + BitVec.ofNat 32 p.offset) (value >>> (8 * p.offset))

/-- A piece of an aligned word lies in the address space. -/
theorem Piece.toNat_addr {p : Piece} (aligned : addr.toNat % 4 = 0) (inside : p.offset + widthBytes p.width ≤ 4) :
    (addr + BitVec.ofNat 32 p.offset).toNat = addr.toNat + p.offset := by
  have one_byte : 1 ≤ widthBytes p.width := by cases p.width <;> decide
  rw [BitVec.toNat_add, BitVec.toNat_ofNat]
  omega

/-- What the write of a piece leaves of the word: the bytes it covers, and those it finds right. -/
theorem Piece.read_written {p : Piece} {m : Memory} {base k : Nat}
    (h : p.Covers k ∨ m.read (base + k) = some (byteOfWord value k)) :
    (m.writeBytes (base + p.offset) (writeBytesOf p.width (value >>> (8 * p.offset)))).read (base + k) =
      some (byteOfWord value k) := by
  by_cases covered : p.Covers k
  · obtain ⟨j, rfl⟩ := Nat.exists_eq_add_of_le covered.1
    have hj : j < widthBytes p.width := by have := covered.2; omega
    rw [← Nat.add_assoc, Machine.read_written m _ _ hj, byteOfWord_ushiftRight]
  · rw [read_unwritten m _ (by omega)]
    exact h.resolve_left covered

/-- Moves that write pieces of an aligned word are made in one step each, and leave every byte of the word that a piece
covers, or that stood there before, whatever the order of the pieces. -/
theorem run_pieces {pieces : List Piece} (aligned : addr.toNat % 4 = 0) (may : MayWrite s addr.toNat 4)
    (inside : ∀ p ∈ pieces, p.offset + widthBytes p.width ≤ 4)
    (script : s.script = pieces.map (Piece.move addr value) ++ rest) :
    ∃ m : Memory, core.run pieces.length s = .next { s with script := rest, memory := m } ∧
      ∀ k, (∃ p ∈ pieces, p.Covers k) ∨ s.memory.read (addr.toNat + k) = some (byteOfWord value k) →
        m.read (addr.toNat + k) = some (byteOfWord value k) := by
  induction pieces generalizing s with
  | nil =>
    obtain rfl : s.script = rest := script
    exact ⟨s.memory, rfl, fun k h => by simpa using h⟩
  | cons p pieces ih =>
    obtain ⟨inside_p, inside⟩ := List.forall_mem_cons.1 inside
    have addr_p := Piece.toNat_addr aligned inside_p
    have made := step_write_fits script (addr_p ▸ MayWrite.part may inside_p) (by omega)
    obtain ⟨m, run, stored⟩ := ih (s := { s with script := pieces.map _ ++ rest, memory := _ }) may inside rfl
    refine ⟨m, (run_succ made _).trans run, fun k h => stored k ?_⟩
    rw [List.exists_mem_cons_iff, or_comm (a := p.Covers k), or_assoc] at h
    refine h.imp_right fun h => ?_
    rw [addr_p]
    exact Piece.read_written h

/-- Pieces that cover the word leave the word to be read (R41). -/
theorem memRead_of_pieces {pieces : List Piece} (aligned : addr.toNat % 4 = 0) (may : MayWrite s addr.toNat 4)
    (admitted : ∀ k < 4, ∃ r ∈ s.admitted, r.base ≤ addr.toNat + k ∧ addr.toNat + k < r.base + r.size)
    (inside : ∀ p ∈ pieces, p.offset + widthBytes p.width ≤ 4) (cover : ∀ k < 4, ∃ p ∈ pieces, p.Covers k)
    (script : s.script = pieces.map (Piece.move addr value) ++ rest) :
    ∃ t, core.run pieces.length s = .next t ∧ t.script = rest ∧ t.memRead addr.toNat = .ok value.toInt := by
  obtain ⟨m, run, stored⟩ := run_pieces aligned may inside script
  exact ⟨_, run, rfl, State.memRead_of_stored aligned admitted fun k hk => stored k (.inl (cover k hk))⟩

end Sys2Proof.Machine
end

section
/-! PROOFS, `20_memory.md`: the obligations. -/

namespace Sys2Proof.Proofs

open Sys2Proof.Machine Sys2Proof.Claims

/-- Settles O11, by the cases of a step: only one of them touches table memory. -/
theorem onlyTheRequesterWritesMemory : Obligations.OnlyTheRequesterWritesMemory := by
  intro s t h
  have unchanged (memory : t.memory = s.memory) : ∀ addr, t.memory.read addr = s.memory.read addr :=
    fun addr => by rw [memory]
  cases step_next_cases h with
  | writes width addr value rest script _ _ next =>
    subst next
    exact .inr ⟨width, addr, value, rest, script, fun a outside => read_unwritten _ _ outside,
      fun k hk => byteOfWord_eq_ofNat value k ▸ read_written _ _ _ hk⟩
  | waits _ _ _ next => exact .inl (unchanged (next ▸ rfl))
  | issues _ _ _ _ _ _ _ _ next => exact .inl (unchanged (next ▸ rfl))
  | moves _ _ _ next => exact .inl (unchanged (next ▸ rfl))
  | resets _ _ next => exact .inl (unchanged (next ▸ rfl))
  | answers _ _ _ _ _ _ _ next => exact .inl (unchanged (next ▸ rfl))
  | fails _ _ _ _ _ _ _ _ next => exact .inl (unchanged (next ▸ rfl))
  | refuses _ _ _ _ _ next => exact .inl (unchanged (next ▸ rfl))

/-- Settles O55: a write that touches no table in flight is made, or is past the last byte. -/
theorem writesTakePlace : Obligations.WritesTakePlace := by
  intro s width addr value rest script may
  refine ⟨fun fits => ?_, fun past => ?_⟩
  · exact ⟨_, step_write_fits script may fits, fun k hk => byteOfWord_eq_ofNat value k ▸ read_written _ _ _ hk,
      fun a outside => read_unwritten _ _ outside⟩
  · rw [step_write_of_mayWrite script may, State.hostWrite_past _ value past]

/-- Settles O17: the extents decide between the race and the write that O55 speaks of. -/
theorem writesWhileBusy : Obligations.WritesWhileBusy := by
  intro s c width addr value rest running busy script
  refine ⟨fun touches => step_write_race running busy script ((writeTouches_iff _).2 touches), fun fits apart => ?_,
    fun x n base decoded => ?_, fun x y nx ny xbase ybase zbase decoded => ?_⟩
  · have may := mayWrite_of_apart busy apart
    obtain ⟨m, made, stored, -⟩ := (writesTakePlace s width addr value rest script may).1 fits
    exact ⟨_, made, rfl, running, rfl, rfl, stored⟩
  · rw [commandExtents, decoded]
    rfl
  · rw [commandExtents, decoded]
    rfl

/-- Settles O27, by the outcomes of `MemRead`. -/
theorem memReadFollowsItsRule : Obligations.MemReadFollowsItsRule := by
  intro s addr
  refine ⟨State.memRead_misaligned, State.memRead_outOfRange, State.memRead_notAdmitted,
    fun b0 b1 b2 b3 aligned inside h0 h1 h2 h3 => ?_⟩
  rw [State.memRead_of_byteIs aligned inside h0 h1 h2 h3, ← toNat_wordOfBytes, BitVec.ofNat_toNat, BitVec.setWidth_eq]

/-- Settles O28: the word is written in one step, and two halves or four bytes are pieces that cover it. -/
theorem writtenWordsAreRead : Obligations.WrittenWordsAreRead := by
  intro s addr value rest aligned may admitted
  refine ⟨fun script => ?_, fun script => ?_, fun script => ?_⟩
  · have fits : addr.toNat + 4 ≤ 2 ^ 32 := by omega
    exact ⟨_, step_write_fits script may fits, rfl,
      State.memRead_of_stored aligned admitted fun k hk => read_written _ _ value hk⟩
  · exact memRead_of_pieces (pieces := [⟨.half, 0⟩, ⟨.half, 2⟩]) aligned may admitted (by decide)
      (by decide) (by simpa [Piece.move] using script)
  · exact memRead_of_pieces (pieces := [⟨.byte, 3⟩, ⟨.byte, 0⟩, ⟨.byte, 2⟩, ⟨.byte, 1⟩]) aligned may admitted
      (by decide) (by decide) (by simpa [Piece.move] using script)

end Sys2Proof.Proofs
end

section
/-! PROOFS, `30_encoding.md`: the decoder beyond what a run needs. The words a command reads are its own, so decode
depends on no others (R60, R65); the decoder's refusals are R66's bullets and no more; and a command stands at the front
of a stream of words (R70). -/

namespace Sys2Proof

open Sys2Proof.Claims

/-! ### A command's own words -/

/-- No slot at or above `n(op)` is read (R60). -/
theorem commandOfOpc_congr {opc : BitVec 8} {a b : Vector Word 7}
    (h : a.toList.take ((operandCount opc).getD 0) = b.toList.take ((operandCount opc).getD 0)) :
    commandOfOpc opc a = commandOfOpc opc b := by
  unfold commandOfOpc
  split
  case h_11 => rfl
  all_goals
    rename_i number
    simp only [operandCount, number, toList_slots, Option.getD_some, List.take_succ_cons, List.take_zero,
      List.cons.injEq, and_true] at h
    simp [h]

/-- What a command decodes to depends on its own words alone (R60, R65). -/
theorem decode_of_words_eq {c d : Command} {i : Instr} (h : decode d = .ok i) (words : c.words = d.words) :
    decode c = .ok i := by
  obtain ⟨cmd, operands⟩ := List.cons.inj words
  rw [cmd] at operands
  rw [decode_eq_ok_iff, cmd]
  obtain ⟨rsv1, rsv2, ⟨conv, fs, fd, i⟩ | ⟨other, fs, fd, named⟩⟩ := (decode_eq_ok_iff d i).1 h
  · have slot : c.a[0] = d.a[0] := by
      simpa [conv, operandCount, toList_slots] using operands
    exact ⟨rsv1, rsv2, .inl ⟨conv, fs, fd, by rw [i, slot]⟩⟩
  · exact ⟨rsv1, rsv2, .inr ⟨other, fs, fd, by rw [commandOfOpc_congr operands, named]⟩⟩

/-- The words of a well-formed command, put into the slots, are the command's own. -/
theorem words_ofWords_encode {i : Instr} (wf : i.wellFormed = true) : (Command.ofWords (encode i)).words = encode i :=
  (encode_of_decode (decode_ofWords_encode wf)).2.symm

/-! ### The bullets of R66, and no other word -/

/-- The bullets of R66, in the fields of the command word. -/
theorem reservedWord_iff (w : Word) : ReservedWord w ↔
    rsv2Field w ≠ 0 ∨ rsv1Field w ≠ 0 ∨
    (opcField w = 0x01 ∧ (30 < (fsField w).toNat ∨ 30 < (fdField w).toNat)) ∨
    (opcField w ≠ 0x01 ∧ (fsField w ≠ 0 ∨ fdField w ≠ 0)) ∨
    (opcField w).toNat ∉ [0x01, 0x02, 0x03, 0x04, 0x10, 0x11, 0x20, 0x30, 0x40, 0x50, 0x60] := by
  have high : w.toNat / 2 ^ 21 = (rsv2Field w).toNat := by
    have := w.isLt
    rw [rsv2Field_toNat]
    omega
  have fs := (fsField w).isLt
  have fd := (fdField w).isLt
  have fs31 : (fsField w).toNat = 31 ↔ 30 < (fsField w).toNat := by omega
  have fd31 : (fdField w).toNat = 31 ↔ 30 < (fdField w).toNat := by omega
  simp only [ReservedWord, high, ← opcField_toNat, ← fsField_toNat, ← fdField_toNat, ← rsv1Field_toNat, fs31, fd31,
    ← BitVec.toNat_inj, ne_eq]
  rfl

/-- Every OPC value of Table OPC other than CONV's names a command. -/
theorem commandOfOpc_of_mem {opc : BitVec 8} (a : Vector Word 7)
    (h : opc.toNat ∈ [0x02, 0x03, 0x04, 0x10, 0x11, 0x20, 0x30, 0x40, 0x50, 0x60]) :
    ∃ i, commandOfOpc opc a = some i := by
  unfold commandOfOpc
  split
  case h_11 => simp_all
  all_goals exact ⟨_, rfl⟩

/-- A word outside R66's bullets decodes, whatever its operand slots hold (R65, R66). -/
theorem decode_of_not_reservedWord {c : Command} (h : ¬ ReservedWord c.cmd) : ∃ i, decode c = .ok i := by
  simp only [reservedWord_iff, not_or, not_and, not_not, not_lt] at h
  obtain ⟨rsv2, rsv1, conv_formats, no_formats, opc⟩ := h
  simp only [decode_eq_ok_iff]
  by_cases conv : opcField c.cmd = 0x01
  · obtain ⟨fs, fd⟩ := conv_formats conv
    exact ⟨_, rsv1, rsv2, .inl ⟨conv, fs, fd, rfl⟩⟩
  · obtain ⟨fs, fd⟩ := no_formats conv
    have other : (opcField c.cmd).toNat ≠ 1 := fun e => conv (BitVec.eq_of_toNat_eq e)
    obtain ⟨i, named⟩ := commandOfOpc_of_mem c.a ((List.mem_cons.1 opc).resolve_left other)
    exact ⟨i, rsv1, rsv2, .inr ⟨conv, fs, fd, named⟩⟩

/-- The decoder refuses a word under its own name only (R66). -/
theorem eq_reservedEncoding_of_decode_error {c : Command} {e : DecodeError} (h : decode c = .error e) :
    e = .reservedEncoding c.cmd :=
  Except.error.inj (h.symm.trans (Machine.reserved_of_decode_error h c.a))

/-- Exactly the words of R66's bullets are refused. -/
theorem reservedWord_iff_decode_error (c : Command) :
    ReservedWord c.cmd ↔ decode c = .error (.reservedEncoding c.cmd) := by
  constructor
  · intro reserved
    obtain ⟨e, refused⟩ := decode_error_of_reservedWord reserved
    rw [refused, eq_reservedEncoding_of_decode_error refused]
  · intro refused
    by_contra allowed
    obtain ⟨i, decoded⟩ := decode_of_not_reservedWord allowed
    rw [decoded] at refused
    cases refused

/-! ### Streams of words -/

theorem opcField_eq_ofNat (w : Word) : opcField w = BitVec.ofNat 8 w.toNat :=
  BitVec.eq_of_toNat_eq (by rw [opcField_toNat, BitVec.toNat_ofNat])

/-- A command is a command word and the `n(op)` operand words of its OPC (R60). -/
theorem encode_eq_cons (i : Instr) :
    ∃ cmd operands, encode i = cmd :: operands ∧ operandCount (opcField cmd) = some operands.length := by
  cases i <;> exact ⟨_, _, rfl, by rw [opcField_commandWord]; rfl⟩

/-- A stream that starts with a command and its `n(op)` operand words reads as that command (R60, R70). -/
theorem decodeStream_append {cmd : Word} {operands : List Word} {i : Instr} (rest : List Word)
    (count : operandCount (opcField cmd) = some operands.length)
    (decoded : decode (Command.ofWords (cmd :: operands)) = .ok i) :
    decodeStream (cmd :: operands ++ rest) = .ok (i, rest) := by
  simp [decodeStream, count, decoded]

end Sys2Proof
end

section
/-! PROOFS, `30_encoding.md`: the assembler (R69, R71). An operand assembles to what fills its slot; the formats of a
line are split off its slot operands; and the lines that assemble are the lines that stand for a command. -/

namespace Sys2Proof.Machine

open Sys2Proof.Claims

variable {cfg : Cfg} {labels : List AsmLabel}

/-! ### Operands -/

theorem assembleInt_eq_ok_iff (n : Int) (x : Source) :
    assembleInt n = .ok x ↔ -2 ^ 31 ≤ n ∧ n ≤ 2 ^ 32 - 1 ∧ x = .word (BitVec.ofInt 32 n) := by
  unfold assembleInt
  split_ifs with outside
  · exact iff_of_false nofun (by omega)
  · rw [Except.ok.injEq, eq_comm]
    have inside : -2 ^ 31 ≤ n ∧ n ≤ 2 ^ 32 - 1 := by omega
    tauto

/-- An operand assembles to what the requester puts into its slot (R69). -/
theorem assembleOperand_eq_ok_iff (o : AsmOperand) (x : Source) :
    assembleOperand cfg labels o = .ok x ↔ FillsSlot cfg labels o x := by
  cases o with
  | decimal n => exact assembleInt_eq_ok_iff n x
  | hex n =>
    have range : -2 ^ 31 ≤ (n : Int) ∧ (n : Int) ≤ 2 ^ 32 - 1 ↔ n ≤ 2 ^ 32 - 1 := by omega
    rw [assembleOperand, assembleInt_eq_ok_iff, ← and_assoc, range, BitVec.ofInt_natCast]
    rfl
  | result label slot =>
    simp only [assembleOperand, FillsSlot]
    cases labels.find? (fun l => l.label == label) with
    | none => simp
    | some l => by_cases slot < l.resultCount <;> simp [*, eq_comm]
  | fx r =>
    simp only [assembleOperand, FillsSlot]
    cases literal cfg.litRound cfg.fracBits r <;> simp [eq_comm]

/-- Operands assemble one by one, in slot order. -/
theorem assembleOperands_eq_ok_iff (os : List AsmOperand) (xs : List Source) :
    assembleOperands cfg labels os = .ok xs ↔ List.Forall₂ (FillsSlot cfg labels) os xs := by
  induction os generalizing xs with
  | nil => simp [assembleOperands, eq_comm]
  | cons o rest ih =>
    simp only [assembleOperands, List.forall₂_cons_left_iff, ← ih, ← assembleOperand_eq_ok_iff]
    cases assembleOperand cfg labels o with
    | error e => simp
    | ok x => cases assembleOperands cfg labels rest <;> simp [eq_comm]

/-! ### Formats -/

theorem assembleFormat_eq_some_iff (o : AsmOperand) (f : BitVec 5) : assembleFormat o = some f ↔ IsFormat o f := by
  cases o with
  | decimal n =>
    simp only [assembleFormat, IsFormat, AsmOperand.decimal.injEq, Option.ite_none_right_eq_some, Option.some.injEq]
    constructor
    · rintro ⟨⟨low, high⟩, rfl⟩
      rw [BitVec.toNat_ofNat]
      omega
    · rintro ⟨high, rfl⟩
      exact ⟨by omega, by simp⟩
  | _ => simp [assembleFormat, IsFormat]

/-- The general format `F` of a build is a format number (R71). -/
theorem assembleFormat_fracBits (small : cfg.fracBits ≤ 30) :
    assembleFormat (.decimal cfg.fracBits) = some (BitVec.ofNat 5 cfg.fracBits) := by
  have range : 0 ≤ (cfg.fracBits : Int) ∧ (cfg.fracBits : Int) ≤ 30 := by omega
  rw [assembleFormat, if_pos range, Int.toNat_natCast]

theorem isFormat_fracBits (small : cfg.fracBits ≤ 30) :
    IsFormat (.decimal cfg.fracBits) (BitVec.ofNat 5 cfg.fracBits) :=
  (assembleFormat_eq_some_iff _ _).1 (assembleFormat_fracBits small)

/-- CONV is well-formed where both its formats are 0..30 (R61). -/
theorem wellFormed_conv {fs fd : BitVec 5} (hfs : fs.toNat ≤ 30) (hfd : fd.toNat ≤ 30) (v : Word) :
    (Instr.conv fs fd v).wellFormed = true := by
  simp [Instr.wellFormed, hfs, hfd]

/-- The format fields of a line: CONV writes both, TOF and FROMF write one and the other is `F`, and no other command
has formats (R61, R69, R71). -/
def LineFormats (cfg : Cfg) (line : AsmLine) (fs fd : BitVec 5) : Prop :=
  match line.mnemonic, line.operands with
  | .conv, x :: y :: _ => IsFormat x fs ∧ IsFormat y fd
  | .tof, k :: _ => IsFormat k fs ∧ fd = BitVec.ofNat 5 cfg.fracBits
  | .fromf, k :: _ => fs = BitVec.ofNat 5 cfg.fracBits ∧ IsFormat k fd
  | .conv, _ => False
  | .tof, _ => False
  | .fromf, _ => False
  | _, _ => fs = 0 ∧ fd = 0

/-- `splitFormats` is the formats of a line with the operands that fill its slots. -/
theorem splitFormats_eq_some_iff (line : AsmLine) (fs fd : BitVec 5) (os : List AsmOperand) :
    splitFormats cfg line = some (fs, fd, os) ↔ LineFormats cfg line fs fd ∧ slotOperands line = os := by
  obtain ⟨label, m, operands⟩ := line
  cases m with
  | conv =>
    rcases operands with _ | ⟨x, _ | ⟨y, v⟩⟩
    · simp [splitFormats, LineFormats]
    · simp [splitFormats, LineFormats]
    · simp only [splitFormats, LineFormats, ← assembleFormat_eq_some_iff]
      cases assembleFormat x <;> cases assembleFormat y <;> simp [slotOperands, and_assoc]
  | tof | fromf =>
    cases operands with
    | nil => simp [splitFormats, LineFormats]
    | cons k v =>
      simp only [splitFormats, LineFormats, ← assembleFormat_eq_some_iff]
      cases assembleFormat k <;> simp [slotOperands, eq_comm, and_assoc]
  | _ => simp only [splitFormats, LineFormats, slotOperands, Option.some.injEq, Prod.mk.injEq, eq_comm, and_assoc]

/-- The lines of a pseudo-instruction split as the CONV lines that they stand for (R71). -/
theorem splitFormats_tof (small : cfg.fracBits ≤ 30) (label : Option (List Char)) (k : AsmOperand)
    (v : List AsmOperand) : splitFormats cfg ⟨label, .tof, k :: v⟩ =
      splitFormats cfg ⟨label, .conv, k :: .decimal cfg.fracBits :: v⟩ := by
  simp only [splitFormats, assembleFormat_fracBits small]
  cases assembleFormat k <;> rfl

theorem splitFormats_fromf (small : cfg.fracBits ≤ 30) (label : Option (List Char)) (k : AsmOperand)
    (v : List AsmOperand) : splitFormats cfg ⟨label, .fromf, k :: v⟩ =
      splitFormats cfg ⟨label, .conv, .decimal cfg.fracBits :: k :: v⟩ := by
  simp only [splitFormats, assembleFormat_fracBits small]
  cases assembleFormat k <;> rfl

/-! ### Lines -/

/-- A line assembles by its formats, its slot operands and its OPC. -/
theorem assembleLine_congr {line other : AsmLine} (parts : splitFormats cfg line = splitFormats cfg other)
    (opc : line.mnemonic.opc = other.mnemonic.opc) : assembleLine cfg labels line = assembleLine cfg labels other := by
  rw [assembleLine, assembleLine, parts, opc]

/-- A line assembles where it has its formats, as many slot operands as its command takes, and each of them something
to fill its slot; then the requester issues the command word of its formats and OPC (R69). -/
theorem assembleLine_eq_ok_iff (line : AsmLine) (move : HostMove) : assembleLine cfg labels line = .ok move ↔
    ∃ fs fd sources, LineFormats cfg line fs fd ∧ operandCount line.mnemonic.opc = some (slotOperands line).length ∧
      List.Forall₂ (FillsSlot cfg labels) (slotOperands line) sources ∧
      move = .issue (commandWord fd fs line.mnemonic.opc) sources := by
  simp only [← assembleOperands_eq_ok_iff]
  constructor
  · intro h
    unfold assembleLine at h
    split at h
    · cases h
    · rename_i fs fd os parts
      obtain ⟨formats, rfl⟩ := (splitFormats_eq_some_iff ..).1 parts
      split_ifs at h with count
      split at h
      · cases h
      · rename_i sources assembled
        cases h
        exact ⟨fs, fd, sources, formats, count, assembled, rfl⟩
  · rintro ⟨fs, fd, sources, formats, count, assembled, rfl⟩
    rw [assembleLine, (splitFormats_eq_some_iff ..).2 ⟨formats, rfl⟩]
    simp only [if_pos count, assembled]

/-- A line with its formats and a word for each of the `n(op)` operands of its slots stands for a command, whose words
are the command word of these formats and the words given (R61, R64, R69, R71). -/
theorem exists_lineMeans (small : cfg.fracBits ≤ 30) : ∀ {line : AsmLine} {fs fd : BitVec 5} {ws : List Word},
    LineFormats cfg line fs fd → operandCount line.mnemonic.opc = some (slotOperands line).length →
      ws.length = (slotOperands line).length →
        ∃ i, LineMeans cfg line ws i ∧ i.wellFormed = true ∧ encode i = commandWord fd fs line.mnemonic.opc :: ws
  | ⟨_, .conv, [_, _, _]⟩, fs, fd, [v], ⟨x, y⟩, _, _ =>
    ⟨.conv fs fd v, ⟨fs, fd, x, y, rfl⟩, wellFormed_conv x.1 y.1 v, rfl⟩
  | ⟨_, .tof, [_, _]⟩, fs, _, [v], ⟨k, rfl⟩, _, _ =>
    ⟨.conv fs _ v, ⟨fs, k, rfl⟩, wellFormed_conv k.1 (isFormat_fracBits small).1 v, rfl⟩
  | ⟨_, .fromf, [_, _]⟩, _, fd, [v], ⟨rfl, k⟩, _, _ =>
    ⟨.conv _ fd v, ⟨fd, k, rfl⟩, wellFormed_conv (isFormat_fracBits small).1 k.1 v, rfl⟩
  | ⟨_, .fmul, [_, _]⟩, _, _, [a, b], ⟨rfl, rfl⟩, _, _ => ⟨.fmul a b, rfl, rfl, rfl⟩
  | ⟨_, .fdiv, [_, _]⟩, _, _, [a, b], ⟨rfl, rfl⟩, _, _ => ⟨.fdiv a b, rfl, rfl, rfl⟩
  | ⟨_, .fabs, [_]⟩, _, _, [a], ⟨rfl, rfl⟩, _, _ => ⟨.fabs a, rfl, rfl, rfl⟩
  | ⟨_, .sin, [_]⟩, _, _, [h], ⟨rfl, rfl⟩, _, _ => ⟨.sin h, rfl, rfl, rfl⟩
  | ⟨_, .cos, [_]⟩, _, _, [h], ⟨rfl, rfl⟩, _, _ => ⟨.cos h, rfl, rfl, rfl⟩
  | ⟨_, .cart2pol, [_, _]⟩, _, _, [a, b], ⟨rfl, rfl⟩, _, _ => ⟨.cart2pol a b, rfl, rfl, rfl⟩
  | ⟨_, .clarke, [_, _, _]⟩, _, _, [a, b, c], ⟨rfl, rfl⟩, _, _ => ⟨.clarke a b c, rfl, rfl, rfl⟩
  | ⟨_, .isqrt, [_]⟩, _, _, [n], ⟨rfl, rfl⟩, _, _ => ⟨.isqrt n, rfl, rfl, rfl⟩
  | ⟨_, .interp2d, [_, _, _]⟩, _, _, [x, n, base], ⟨rfl, rfl⟩, _, _ => ⟨.interp2d x n base, rfl, rfl, rfl⟩
  | ⟨_, .interp3d, [_, _, _, _, _, _, _]⟩, _, _, [x, y, nx, ny, xbase, ybase, zbase], ⟨rfl, rfl⟩, _, _ =>
    ⟨.interp3d x y nx ny xbase ybase zbase, rfl, rfl, rfl⟩

/-- A line that stands for a command has the command's formats, and the `n(op)` operands of its slots. -/
theorem lineFormats_of_lineMeans {line : AsmLine} {ws : List Word} {i : Instr} (means : LineMeans cfg line ws i) :
    ∃ fs fd, LineFormats cfg line fs fd ∧ operandCount line.mnemonic.opc = some (slotOperands line).length := by
  obtain ⟨label, m, operands⟩ := line
  unfold LineMeans at means
  split at means
  case h_14 => exact means.elim
  all_goals
    rename_i mnemonic written
    cases mnemonic
    cases written
  case h_1 =>
    obtain ⟨fs, fd, x, y, -⟩ := means
    exact ⟨fs, fd, ⟨x, y⟩, rfl⟩
  case h_2 =>
    obtain ⟨fs, k, -⟩ := means
    exact ⟨fs, _, ⟨k, rfl⟩, rfl⟩
  case h_3 =>
    obtain ⟨fd, k, -⟩ := means
    exact ⟨_, fd, ⟨rfl, k⟩, rfl⟩
  all_goals exact ⟨0, 0, ⟨rfl, rfl⟩, rfl⟩

end Sys2Proof.Machine
end

section
/-! PROOFS, `30_encoding.md`: the obligations. -/

namespace Sys2Proof.Proofs

open Sys2Proof.Machine Sys2Proof.Claims

/-- Settles O4: `c` has the own words of the command that `encode i` makes with zeros after it, and that one decodes to
`i`. -/
theorem decodeOfEncodedWords : Obligations.DecodeOfEncodedWords :=
  fun _ _ wf words => decode_of_words_eq (decode_ofWords_encode wf) (words.trans (words_ofWords_encode wf).symm)

/-- Settles O5, by the inversion of `decode`. -/
theorem decodedCommandsEncodeBack : Obligations.DecodedCommandsEncodeBack :=
  fun _ _ decoded => encode_of_decode decoded

/-- Settles O6: the decoder's refusals, and the step of a busy block that serves a reserved word. -/
theorem reservedWordsAreRefused : Obligations.ReservedWordsAreRefused := by
  intro c
  refine ⟨reservedWord_iff_decode_error c, fun e => eq_reservedEncoding_of_decode_error,
    fun s reserved running busy waits => ?_⟩
  rw [step_serves running busy waits, State.serve_of_reservedWord reserved]
  rfl

/-- Settles O7: the command word gives the count, and the words it takes decode. -/
theorem streamOfWordsDecodes : Obligations.StreamOfWordsDecodes := by
  intro i rest wf
  obtain ⟨cmd, operands, words, count⟩ := encode_eq_cons i
  have decoded := decode_ofWords_encode wf
  rw [words] at decoded ⊢
  exact ⟨decodeStream_append rest count decoded, cmd, operands, rfl, by rw [← opcField_eq_ofNat, count]⟩

/-- Settles O52: what assembles has formats and an operand for each slot, so that any words there make a command, and
a line that stands for a command has these. -/
theorem assembledLinesDecode : Obligations.AssembledLinesDecode := by
  intro cfg labels line small
  constructor
  · intro move assembled
    obtain ⟨fs, fd, sources, formats, count, fills, rfl⟩ := (assembleLine_eq_ok_iff ..).1 assembled
    refine ⟨_, sources, rfl, fills, fun ws filled => ?_⟩
    obtain ⟨i, means, wf, words⟩ := exists_lineMeans small formats count (filled.trans fills.length_eq.symm)
    exact ⟨i, means, wf, words, words ▸ decode_ofWords_encode wf⟩
  · intro operands ws i means fills
    obtain ⟨fs, fd, formats, count⟩ := lineFormats_of_lineMeans means
    exact ⟨_, (assembleLine_eq_ok_iff ..).2 ⟨fs, fd, operands, formats, count, fills, rfl⟩⟩

/-- Settles O3, by decoding each of the fixed words. -/
theorem specWordsDecode : Obligations.SpecWordsDecode := by
  unfold Obligations.SpecWordsDecode
  decide

/-- Settles O53: the two lines have the same formats and slot operands, and CONV's OPC. -/
theorem pseudoInstructionsExpand : Obligations.PseudoInstructionsExpand := by
  intro cfg labels label k v small
  exact ⟨assembleLine_congr (splitFormats_tof small label k v) rfl,
    assembleLine_congr (splitFormats_fromf small label k v) rfl⟩

end Sys2Proof.Proofs
end

section
/-! PROOFS, `40_fixed_point_format.md`: shifts and widths. The model's `shr` and `narrow` are the library operations of
the statements; a shift undoes a multiplication, errs by less than one unit, and keeps a value in the signed range, also
after it is shifted back up (R11, R82, R85). -/

namespace Sys2Proof.Machine

open Sys2Proof.Claims

theorem shr_eq_libShr (round : ShrRound) (v : Int) (n : Nat) : shr round v n = libShr round v n := by
  cases round with
  | towardZero => exact shr0_eq_tdiv v n
  | floor => exact (Int.fdiv_eq_ediv_of_nonneg v (by positivity)).symm

theorem narrow_eq_libNarrow (width : Intermediate) (v : Int) : narrow width v = libNarrow width v := by
  cases width with
  | int32 => exact wrap32_eq_bmod v
  | wide => rfl

/-- An intermediate is exact where INT32 has nothing to wrap (R82, R83). -/
theorem libNarrow_of_inRange {width : Intermediate} {v : Int}
    (inRange : width = .int32 → -2 ^ 31 ≤ v ∧ v ≤ 2 ^ 31 - 1) : libNarrow width v = v := by
  cases width with
  | int32 =>
    obtain ⟨lo, hi⟩ := inRange rfl
    rw [← narrow_eq_libNarrow]
    exact wrap32_of_inRange lo hi
  | wide => rfl

/-- A right shift floors, except that under TOWARD_ZERO a negative value is shifted by its magnitude (R11). -/
theorem libShr_cases (round : ShrRound) (v : Int) (n : Nat) :
    libShr round v n = v / 2 ^ n ∨ v < 0 ∧ libShr round v n = -(-v / 2 ^ n) := by
  cases round with
  | floor => exact .inl (Int.fdiv_eq_ediv_of_nonneg v (by positivity))
  | towardZero =>
    rcases lt_or_ge v 0 with negative | nonneg
    · refine .inr ⟨negative, ?_⟩
      rw [libShr, ← Int.tdiv_eq_ediv_of_nonneg (by omega), Int.neg_tdiv, neg_neg]
    · exact .inl (Int.tdiv_eq_ediv_of_nonneg nonneg)

theorem libShr_zero (round : ShrRound) (v : Int) : libShr round v 0 = v := by
  cases round <;> simp [libShr]

theorem libShr_mul_pow (round : ShrRound) (v : Int) (n : Nat) : libShr round (v * 2 ^ n) n = v := by
  have pos : (2 ^ n : Int) ≠ 0 := by positivity
  cases round with
  | towardZero => exact Int.mul_tdiv_cancel v pos
  | floor => exact Int.mul_fdiv_cancel v pos

/-- Shifting right and back up loses less than one unit (R82). -/
theorem abs_libShr_mul_pow_sub_lt (round : ShrRound) (v : Int) (n : Nat) :
    |libShr round v n * 2 ^ n - v| < 2 ^ n := by
  have pos : (0 : Int) < 2 ^ n := by positivity
  rw [abs_lt]
  rcases libShr_cases round v n with floors | ⟨-, mirrored⟩
  · have := Int.ediv_mul_add_emod v (2 ^ n)
    have := Int.emod_nonneg v pos.ne'
    have := Int.emod_lt_of_pos v pos
    rw [floors]
    constructor <;> linarith
  · have := Int.ediv_mul_add_emod (-v) (2 ^ n)
    have := Int.emod_nonneg (-v) pos.ne'
    have := Int.emod_lt_of_pos (-v) pos
    rw [mirrored, neg_mul]
    constructor <;> linarith

/-- The most negative word is a multiple of every unit up to 2^31, so no rounding takes a word below it (R85). -/
theorem libShr_mul_pow_inRange (round : ShrRound) {v : Int} {n : Nat} (small : n ≤ 31) (lo : -2 ^ 31 ≤ v)
    (hi : v ≤ 2 ^ 31 - 1) : -2 ^ 31 ≤ libShr round v n * 2 ^ n ∧ libShr round v n * 2 ^ n ≤ 2 ^ 31 - 1 := by
  have pos : (0 : Int) < 2 ^ n := by positivity
  rcases libShr_cases round v n with floors | ⟨negative, mirrored⟩
  · rw [floors]
    have bottom : (-2 ^ 31 : Int) = -2 ^ (31 - n) * 2 ^ n := by
      rw [neg_mul, ← pow_add, Nat.sub_add_cancel small]
    have above : -2 ^ (31 - n) ≤ v / 2 ^ n := by
      rw [Int.le_ediv_iff_mul_le pos, ← bottom]
      exact lo
    have below := Int.ediv_mul_le v pos.ne'
    exact ⟨bottom ▸ mul_le_mul_of_nonneg_right above pos.le, below.trans hi⟩
  · rw [mirrored, neg_mul]
    have below := Int.ediv_mul_le (-v) pos.ne'
    have nonneg : 0 ≤ -v / 2 ^ n * 2 ^ n := mul_nonneg (Int.ediv_nonneg (by omega) pos.le) pos.le
    omega

theorem libShr_inRange (round : ShrRound) {v : Int} {n : Nat} (small : n ≤ 31) (lo : -2 ^ 31 ≤ v)
    (hi : v ≤ 2 ^ 31 - 1) : -2 ^ 31 ≤ libShr round v n ∧ libShr round v n ≤ 2 ^ 31 - 1 := by
  obtain ⟨above, below⟩ := libShr_mul_pow_inRange round small lo hi
  have one : (1 : Int) ≤ 2 ^ n := one_le_pow₀ (by norm_num)
  rcases le_total 0 (libShr round v n) with nonneg | nonpos
  · have := le_mul_of_one_le_right nonneg one
    omega
  · have := mul_le_mul_of_nonpos_left one nonpos
    omega

/-- Under TOWARD_ZERO, shifting right and back up takes the remainder off and brings no value further from zero (R85). -/
theorem libShr_towardZero_mul_pow (v : Int) (n : Nat) :
    libShr .towardZero v n * 2 ^ n = v - v.tmod (2 ^ n) ∧
      (libShr .towardZero v n * 2 ^ n).natAbs ≤ v.natAbs := by
  constructor
  · have := Int.tdiv_mul_add_tmod v (2 ^ n)
    exact eq_sub_of_add_eq this
  · rw [libShr, Int.natAbs_mul, Int.natAbs_tdiv]
    exact Nat.div_mul_le_self ..

end Sys2Proof.Machine
end

section
/-! PROOFS, `40_fixed_point_format.md`: one equation for the answer of each command of the format layer, with the exact
integer whose word it is (R81 to R84). -/

namespace Sys2Proof.Machine

open Sys2Proof.Claims

/-! ### Words -/

/-- `word_sint32`, with the reading that the statements write out. -/
theorem word_toInt (w : Word) : word w.toInt = w := word_sint32 w

/-- A word that holds an integer of the signed range reads as that integer (R9). -/
theorem toInt_word_of_inRange {n : Int} (lo : -2 ^ 31 ≤ n) (hi : n ≤ 2 ^ 31 - 1) : (word n).toInt = n :=
  (sint32_word n).trans (wrap32_of_inRange lo hi)

/-- A command's own words decode to it, however its command word is written (R65). -/
theorem decode_ofWords_cons {i : Instr} {cmd cmd' : Word} {operands : List Word} (wf : i.wellFormed = true)
    (words : encode i = cmd :: operands) (value : cmd' = cmd) :
    decode (Command.ofWords (cmd' :: operands)) = .ok i := by
  rw [value, ← words]
  exact decode_ofWords_encode wf

/-! ### CONV -/

theorem exec_conv (fs fd : BitVec 5) (v : Word) (s : State) : exec (.conv fs fd v) s =
    .next (answered s (word (convert s.cfg.shrRound fs.toNat fd.toNat v.toInt)) none) := rfl

theorem convert_up (round : ShrRound) {x y : Nat} (up : x ≤ y) (v : Int) :
    convert round x y v = wrap32 (v * 2 ^ (y - x)) := by
  rw [convert, if_pos up, shl]

/-- Equal formats are a shift down by nothing as well, where the value is a word's. -/
theorem convert_down (round : ShrRound) {x y : Nat} (down : y ≤ x) {v : Int} (lo : -2 ^ 31 ≤ v)
    (hi : v ≤ 2 ^ 31 - 1) : convert round x y v = libShr round v (x - y) := by
  rcases down.eq_or_lt with rfl | below
  · rw [convert_up round le_rfl, Nat.sub_self, libShr_zero, pow_zero, mul_one, wrap32_of_inRange lo hi]
  · rw [convert, if_neg (by omega), shr_eq_libShr]

/-- CONV's word, of the integer that is not wrapped yet (R81). -/
theorem word_convert (round : ShrRound) (x y : Nat) (v : Int) : word (convert round x y v) =
    word (if x ≤ y then v * 2 ^ (y - x) else libShr round v (x - y)) := by
  split_ifs with up
  · rw [convert_up round up, word_wrap32]
  · rw [convert, if_neg up, shr_eq_libShr]

/-- The command word of CONV as a number (Table FMT). -/
theorem ofNat_eq_commandWord_conv (fd fs : BitVec 5) :
    BitVec.ofNat 32 (0x01 + 2 ^ 8 * fs.toNat + 2 ^ 16 * fd.toNat) = commandWord fd fs 0x01 := by
  apply BitVec.eq_of_toNat_eq
  rw [commandWord_toNat, BitVec.toNat_ofNat]
  exact Nat.mod_eq_of_lt (by omega)

/-! ### FMUL, FDIV and FABS -/

/-- The multiply of R82, which CLARKE shares (R130). -/
theorem fixedMul_eq (cfg : Cfg) (a b : Int) : fixedMul cfg a b = wrap32 (libMul cfg a b) := by
  rw [fixedMul, shr_eq_libShr, narrow_eq_libNarrow, libMul]

theorem exec_fmul (a b : Word) (s : State) : exec (.fmul a b) s =
    .next (answered s (word (libMul s.cfg a.toInt b.toInt)) none) := by
  rw [← word_wrap32, ← fixedMul_eq]
  rfl

theorem libMul_comm (cfg : Cfg) (a b : Int) : libMul cfg a b = libMul cfg b a := by
  rw [libMul, mul_comm, libMul]

theorem exec_fdiv (a : Word) {b : Word} (nonzero : b ≠ 0) (s : State) : exec (.fdiv a b) s =
    .next (answered s (word (Int.tdiv (libNarrow s.cfg.divDividend (a.toInt * 2 ^ s.cfg.fracBits)) b.toInt)) none) := by
  rw [← word_wrap32, ← tdiv_eq, ← narrow_eq_libNarrow]
  exact if_neg (mt (sint32_eq_zero_iff b).1 nonzero)

/-- A zero divisor is found before any other work (R83, R191). -/
theorem exec_fdiv_zero (a : Word) (s : State) : exec (.fdiv a 0) s =
    .next (faulted s (.divideByZero [0x00000003, a, 0])) := by
  have words : encode (.fdiv a 0) = [0x00000003, a, 0] := congrArg (· :: [a, 0]) (by decide)
  rw [exec, execFdiv, if_pos ((sint32_eq_zero_iff 0).2 rfl), words]
  rfl

theorem exec_fabs (a : Word) (s : State) : exec (.fabs a) s = .next (answered s (word |a.toInt|) none) := by
  rw [← word_wrap32, Int.abs_eq_natAbs]
  rfl

/-- Only the most negative word's value has no positive counterpart in the signed range (R84). -/
theorem abs_toInt_le {a : Word} (other : a ≠ 0x80000000) : |a.toInt| ≤ 2 ^ 31 - 1 := by
  obtain ⟨lo, hi⟩ : -2 ^ 31 ≤ a.toInt ∧ a.toInt ≤ 2 ^ 31 - 1 := sint32_bounds a
  have above : a.toInt ≠ -2 ^ 31 := fun least => other (BitVec.eq_of_toInt_eq (least.trans rfl))
  rw [abs_le]
  omega

end Sys2Proof.Machine
end

section
/-! PROOFS, `40_fixed_point_format.md`: literals. The code of a literal is its sign and the rounding of a quotient of
natural numbers, and that rounding is the one the setting names, on either side of zero (R80). -/

namespace Sys2Proof.Machine

open Sys2Proof.Claims

/-- The rounding of `a / d` that `Cfg.LIT_ROUND` selects, for natural numbers (R80). -/
def roundQuotient (round : LitRound) (a d : Nat) : Nat :=
  match round with
  | .nearestAway => (2 * a + d) / (2 * d)
  | .towardZero => a / d

theorem literalCode_eq (round : LitRound) (k : Nat) (r : Rat) :
    literalCode round k r = r.num.sign * (roundQuotient round (r.num.natAbs * 2 ^ k) r.den : Int) := by
  cases round <;> rfl

theorem roundQuotient_zero (round : LitRound) {d : Nat} (pos : 0 < d) : roundQuotient round 0 d = 0 := by
  cases round with
  | nearestAway => exact Nat.div_eq_of_lt (by omega)
  | towardZero => exact Nat.zero_div d

theorem roundsTo_roundQuotient (round : LitRound) (a : Nat) {d : Nat} (pos : 0 < d) :
    RoundsTo round (a / d) (roundQuotient round a d) := by
  have nonneg : (0 : Rat) ≤ a / d := by positivity
  cases round with
  | nearestAway =>
    have floors : ((2 * a + d) / (2 * d) : Nat) = ⌊(a / d + 1 / 2 : Rat)⌋₊ := by
      rw [← Nat.floor_div_eq_div (K := Rat)]
      congr 1
      push_cast
      field_simp
    have below : (((2 * a + d) / (2 * d) : Nat) : Rat) ≤ a / d + 1 / 2 := floors ▸ Nat.floor_le (by positivity)
    have above : (a / d + 1 / 2 : Rat) < ((2 * a + d) / (2 * d) : Nat) + 1 := floors ▸ Nat.lt_floor_add_one _
    simp only [RoundsTo, roundQuotient, Int.cast_natCast, Nat.abs_cast, abs_of_nonneg nonneg]
    generalize (((2 * a + d) / (2 * d) : Nat) : Rat) = m at below above ⊢
    have half : |(a / d : Rat) - m| ≤ 1 / 2 := abs_le.2 ⟨by linarith, by linarith⟩
    refine ⟨by linarith, fun tie => le_of_not_gt fun larger => ?_⟩
    rw [abs_of_pos (sub_pos.2 larger)] at tie
    linarith
  | towardZero =>
    have floors : (a / d : Nat) = ⌊(a / d : Rat)⌋₊ := (Nat.floor_div_eq_div a d).symm
    have below : ((a / d : Nat) : Rat) ≤ a / d := floors ▸ Nat.floor_le nonneg
    have above : (a / d : Rat) < (a / d : Nat) + 1 := floors ▸ Nat.lt_floor_add_one _
    simp only [RoundsTo, roundQuotient, Int.cast_natCast, Nat.abs_cast, abs_of_nonneg nonneg]
    refine ⟨?_, below, by positivity⟩
    rw [abs_of_nonneg (by linarith)]
    linarith

/-- Both roundings are the same on either side of zero (R80). -/
theorem roundsTo_neg {round : LitRound} {t : Rat} {n : Int} (rounds : RoundsTo round t n) :
    RoundsTo round (-t) (-n) := by
  have mirrored : |-t + n| = |t - n| := by rw [neg_add_eq_sub, abs_sub_comm]
  cases round <;> simpa [RoundsTo, mirrored] using rounds

theorem roundsTo_literalCode (round : LitRound) (k : Nat) (r : Rat) :
    RoundsTo round (r * 2 ^ k) (literalCode round k r) := by
  have magnitude := roundsTo_roundQuotient round (r.num.natAbs * 2 ^ k) r.den_pos
  have value : r * 2 ^ k = (r.num * 2 ^ k : Rat) / r.den := by
    rw [mul_div_right_comm, Rat.num_div_den]
  rw [literalCode_eq, value]
  rcases lt_trichotomy r.num 0 with negative | zero | positive
  · rw [Int.sign_eq_neg_one_of_neg negative, neg_one_mul]
    convert roundsTo_neg magnitude using 1
    push_cast [Nat.cast_natAbs, abs_of_neg negative]
    ring
  · simpa [zero, roundQuotient_zero round r.den_pos] using magnitude
  · rw [Int.sign_eq_one_of_pos positive, one_mul]
    convert magnitude using 1
    push_cast [Nat.cast_natAbs, abs_of_pos positive]
    ring

theorem literal_eq (round : LitRound) (k : Nat) (r : Rat) : literal round k r =
    if -2 ^ 31 ≤ literalCode round k r ∧ literalCode round k r ≤ 2 ^ 31 - 1 then .ok (literalCode round k r)
    else .error (.literalRange r) := by
  rw [literal, ← ite_not]
  congr 1
  simp only [not_or, not_lt, gt_iff_lt]

end Sys2Proof.Machine
end

section
/-! PROOFS, `40_fixed_point_format.md`: the obligations. -/

namespace Sys2Proof.Proofs

open Sys2Proof.Machine Sys2Proof.Claims

/-- Settles O30: upward the product is a word's value, which the shift down divides exactly; downward the shifted value
and its shift back up both stay in the signed range. -/
theorem convRoundTrip : Obligations.ConvRoundTrip := by
  intro x y v s t hx hy
  obtain ⟨lo, hi⟩ : -2 ^ 31 ≤ v.toInt ∧ v.toInt ≤ 2 ^ 31 - 1 := sint32_bounds v
  constructor
  · intro up above below
    refine ⟨_, exec_conv x y v s, ?_⟩
    have scaled : (word (convert s.cfg.shrRound x.toNat y.toNat v.toInt)).toInt =
        v.toInt * 2 ^ (y.toNat - x.toNat) := by
      rw [convert_up _ up, word_wrap32, toInt_word_of_inRange above below]
    rw [exec_conv, scaled, convert_down _ up above below, libShr_mul_pow, word_toInt]
  · intro down
    refine ⟨_, _, exec_conv x y v s, exec_conv y x _ t, ?_⟩
    have small : x.toNat - y.toNat ≤ 31 := by omega
    obtain ⟨shiftedLo, shiftedHi⟩ := libShr_inRange s.cfg.shrRound small lo hi
    obtain ⟨backLo, backHi⟩ := libShr_mul_pow_inRange s.cfg.shrRound small lo hi
    have back : (word (convert t.cfg.shrRound y.toNat x.toNat
        (word (convert s.cfg.shrRound x.toNat y.toNat v.toInt)).toInt)).toInt =
        libShr s.cfg.shrRound v.toInt (x.toNat - y.toNat) * 2 ^ (x.toNat - y.toNat) := by
      rw [convert_down _ down.le lo hi, toInt_word_of_inRange shiftedLo shiftedHi, convert_up _ down.le,
        word_wrap32, toInt_word_of_inRange backLo backHi]
    refine ⟨back, fun towardZero => ?_⟩
    rw [back, towardZero]
    exact libShr_towardZero_mul_pow ..

/-- Settles O32: without a wrap the response is the exact product shifted right. -/
theorem fmulErrorBelowOneUnit : Obligations.FmulErrorBelowOneUnit := by
  intro a b s
  refine ⟨by rw [exec_fmul, exec_fmul, libMul_comm], fun exact above below => ⟨_, exec_fmul a b s, ?_⟩⟩
  rw [toInt_word_of_inRange above below, libMul, libNarrow_of_inRange exact]
  exact abs_libShr_mul_pow_sub_lt ..

/-- Settles O51: the integer is the literal's code. -/
theorem literalsRoundAsBuilt : Obligations.LiteralsRoundAsBuilt :=
  fun round k r => ⟨literalCode round k r, roundsTo_literalCode round k r, literal_eq round k r⟩

/-- Settles O29, by the equation of CONV's answer. -/
theorem convResult : Obligations.ConvResult := by
  intro fs fd v s hfs hfd
  refine ⟨decode_ofWords_cons (wellFormed_conv hfs hfd v) rfl (ofNat_eq_commandWord_conv fd fs), ?_⟩
  rw [exec_conv, word_convert, word]

/-- Settles O31, by the equation of FMUL's answer. -/
theorem fmulResult : Obligations.FmulResult :=
  fun a b s => ⟨decode_ofWords_cons (i := .fmul a b) rfl rfl (by decide), exec_fmul a b s⟩

/-- Settles O33, by the two equations of FDIV's answer. -/
theorem fdivResult : Obligations.FdivResult := by
  intro a b s
  refine ⟨decode_ofWords_cons (i := .fdiv a b) rfl rfl (by decide), fun nonzero => exec_fdiv a nonzero s, ?_⟩
  rintro rfl
  exact exec_fdiv_zero a s

/-- Settles O35: the magnitude of every word but the most negative is in the signed range. -/
theorem fabsResult : Obligations.FabsResult := by
  intro a s
  refine ⟨decode_ofWords_cons (i := .fabs a) rfl rfl (by decide), _, exec_fabs a s, fun other => ?_, ?_⟩
  · exact toInt_word_of_inRange (le_trans (by norm_num) (abs_nonneg _)) (abs_toInt_le other)
  · rintro rfl
    decide

end Sys2Proof.Proofs
end

section
/-! PROOFS, `41_sin_cos_lookup.md`: one equation for the answer of SIN and of COS, each an entry of the sine table at an
index that is written in bits 15:8 of the angle word (R100 to R102). -/

namespace Sys2Proof.Machine

open Sys2Proof.Claims

/-- Sign extension of a 16-bit pattern read as unsigned is its signed reading (R10). -/
theorem sext_toNat (h : Half) : sext 16 h.toNat = h.toInt := by
  rw [sext, BitVec.toInt_eq_toNat_cond]
  split <;> split <;> omega

theorem sineIndex_eq (h : Half) : sineIndex h = h.toNat / 2 ^ 8 := by
  rw [sineIndex, BitVec.extractLsb'_toNat, Nat.shiftRight_eq_div_pow]
  exact Nat.mod_eq_of_lt (by omega)

theorem toNat_angleOf (w : Word) : (angleOf w).toNat = w.toNat % 2 ^ 16 := by
  rw [angleOf, BitVec.extractLsb'_toNat, Nat.shiftRight_zero]

/-- The entry that SIN reads: bits 15:8 of the word (R101). -/
theorem sineIndex_angleOf (w : Word) : sineIndex (angleOf w) = w.toNat / 256 % 256 := by
  rw [sineIndex_eq, toNat_angleOf]
  omega

/-- A quarter turn in 16 bits is 64 entries round the table (R102). -/
theorem sineIndex_angleOf_add_quarter (w : Word) :
    sineIndex (angleOf w + 16384#16) = (w.toNat / 256 % 256 + 64) % 256 := by
  have sum : (angleOf w + 16384#16).toNat = (w.toNat % 2 ^ 16 + 16384) % 2 ^ 16 := by
    rw [BitVec.toNat_add, toNat_angleOf]
    rfl
  rw [sineIndex_eq, sum]
  omega

/-- A turn by whole entries, in the full word: no carry out of bits 7:0 reaches the index (R103). -/
theorem index_add_turn (a turn : Word) (whole : turn.toNat % 256 = 0) :
    (a + turn).toNat / 256 % 256 = (a.toNat / 256 % 256 + turn.toNat / 256) % 256 := by
  rw [BitVec.toNat_add]
  omega

theorem word_sineAt (s : State) (h : Half) :
    word (s.sineAt h) = (s.cfg.sineTable.getD (sineIndex h) 0).signExtend 32 := by
  rw [State.sineAt, State.romSine, sext_toNat]
  rfl

theorem exec_sin (angle : Word) (s : State) : exec (.sin angle) s =
    .next (answered s ((s.cfg.sineTable.getD (angle.toNat / 256 % 256) 0).signExtend 32) none) := by
  rw [← sineIndex_angleOf, ← word_sineAt]
  rfl

theorem exec_cos (angle : Word) (s : State) : exec (.cos angle) s =
    .next (answered s ((s.cfg.sineTable.getD ((angle.toNat / 256 % 256 + 64) % 256) 0).signExtend 32) none) := by
  rw [← sineIndex_angleOf_add_quarter, ← word_sineAt]
  rfl

/-- A response that is an entry reads as the entry's signed value (R10). -/
theorem toInt_sineEntry (c : Cfg) (k : Nat) : ((c.sineTable.getD k 0).signExtend 32).toInt = c.sine k :=
  BitVec.toInt_signExtend_of_le (by omega)

/-- Half a turn on in a legal table stands the negative (R26). -/
theorem sine_half_turn {c : Cfg} (legal : c.legal = true) {k : Nat} (hk : k < 256) :
    c.sine ((k + 128) % 256) = -c.sine k := by
  obtain ⟨-, legalSine, -⟩ := (Cfg.legal_iff c).1 legal
  obtain ⟨-, -, antisymmetric⟩ := (Cfg.legalSine_iff c).1 legalSine
  exact antisymmetric k hk

end Sys2Proof.Machine
end

section
/-! PROOFS, `41_sin_cos_lookup.md`: the obligations. -/

namespace Sys2Proof.Proofs

open Sys2Proof.Machine Sys2Proof.Claims

/-- Settles O38: a turn by whole entries moves the index, where a legal table has the negative half a turn on; and the
answers of SIN and COS name the angle in the index only. -/
theorem trigIdentities : Obligations.TrigIdentities := by
  intro a s legal
  refine ⟨⟨_, _, exec_sin a s, exec_sin (a + 32768) s, ?_⟩, ?_, fun b same => ⟨?_, ?_⟩⟩
  · have index : (a + 32768).toNat / 256 % 256 = (a.toNat / 256 % 256 + 128) % 256 :=
      index_add_turn a 32768 (by decide)
    rw [index, toInt_sineEntry, toInt_sineEntry, sine_half_turn legal (Nat.mod_lt _ (by decide)), neg_neg]
  · have index : (a + 16384).toNat / 256 % 256 = (a.toNat / 256 % 256 + 64) % 256 :=
      index_add_turn a 16384 (by decide)
    rw [exec_cos, exec_sin, index]
  · rw [exec_sin, exec_sin, same]
  · rw [exec_cos, exec_cos, same]

/-- Settles O36, by the equation of SIN's answer. -/
theorem sinResult : Obligations.SinResult :=
  fun angle s => ⟨decode_ofWords_cons (i := .sin angle) rfl rfl (by decide), exec_sin angle s⟩

/-- Settles O37, by the equation of COS's answer. -/
theorem cosResult : Obligations.CosResult :=
  fun angle s => ⟨decode_ofWords_cons (i := .cos angle) rfl rfl (by decide), exec_cos angle s⟩

end Sys2Proof.Proofs
end

section
/-! PROOFS, `42_cordic_rotator.md`: the rotator as a sequence of turns. One turn is exact; what narrows its pair is
named apart, so that the model's 14 wrapping micro-rotations and the unwrapped ones are the same sequence under two
narrowings (R111 to R114). -/

namespace Sys2Proof.Machine

open Sys2Proof.Claims

/-- The exact micro-rotation of R113, before its results are narrowed. -/
def turn (i : Nat) (t : Int) (v : Rotor) : Rotor :=
  if v.im < 0 then ⟨v.re - asr v.im i, v.im + asr v.re i, v.acc - t⟩
  else ⟨v.re + asr v.im i, v.im - asr v.re i, v.acc + t⟩

/-- The rotor with its pair narrowed; the angle accumulator is not (R111). -/
def Rotor.narrow (f : Int → Int) (v : Rotor) : Rotor := ⟨f v.re, f v.im, v.acc⟩

/-- The rotor after the first `n` micro-rotations of a build, each pair narrowed by `f`. -/
def turns (f : Int → Int) (cfg : Cfg) (v : Rotor) (n : Nat) : Rotor :=
  match n with
  | 0 => v
  | n + 1 => (turn n (cfg.cordicAtan.getD n 0 : Nat) (turns f cfg v n)).narrow f

/-- The rotor that R112 hands to the micro-rotations. -/
def Rotor.start (a b : Int) : Rotor := ⟨(preRotate a b).1.1, (preRotate a b).1.2, 0⟩

theorem turn_of_neg {v : Rotor} (negative : v.im < 0) (i : Nat) (t : Int) :
    turn i t v = ⟨v.re - asr v.im i, v.im + asr v.re i, v.acc - t⟩ := if_pos negative

theorem turn_of_nonneg {v : Rotor} (nonneg : 0 ≤ v.im) (i : Nat) (t : Int) :
    turn i t v = ⟨v.re + asr v.im i, v.im - asr v.re i, v.acc + t⟩ := if_neg (by omega)

theorem microRotate_eq (i : Nat) (t : Int) (v : Rotor) : microRotate i t v = (turn i t v).narrow wrap32 := by
  rcases lt_or_ge v.im 0 with negative | nonneg
  · rw [turn_of_neg negative, microRotate, if_pos negative]
    rfl
  · rw [turn_of_nonneg nonneg, microRotate, if_neg (by omega)]
    rfl

theorem foldl_microRotate_eq (s : State) (v : Rotor) (n : Nat) :
    (List.range n).foldl (fun v i => microRotate i (s.romAtan i) v) v = turns wrap32 s.cfg v n := by
  induction n with
  | zero => rfl
  | succ n ih =>
    rw [List.range_succ, List.foldl_append, ih]
    exact microRotate_eq ..

theorem asr_eq_fdiv (v : Int) (n : Nat) : asr v n = Int.fdiv v (2 ^ n) :=
  (Int.fdiv_eq_ediv_of_nonneg v (by positivity)).symm

/-- Every narrowing of the turns obeys R113. -/
theorem rotates_turns (f : Int → Int) (cfg : Cfg) {v : Rotor} (zero : v.acc = 0) :
    Rotates cfg f (fun n => (turns f cfg v n).re) (fun n => (turns f cfg v n).im) (fun n => (turns f cfg v n).acc) := by
  refine ⟨zero, fun i _ => ⟨fun negative => ?_, fun nonneg => ?_⟩⟩
  · simp only [turns, turn_of_neg negative, Rotor.narrow, asr_eq_fdiv, and_self]
  · simp only [turns, turn_of_nonneg nonneg, Rotor.narrow, asr_eq_fdiv, and_self]

/-- The pre-rotation is the one R112 names. -/
theorem quadrant_start (a b : Int) : Quadrant a b (Rotor.start a b).re (Rotor.start a b).im (preRotate a b).2 := by
  unfold Rotor.start preRotate
  split_ifs with third second
  · exact .inl ⟨third.1, third.2, wrap32_eq_bmod _, rfl, rfl⟩
  · exact .inr (.inl ⟨second, by omega, rfl, wrap32_eq_bmod _, rfl⟩)
  · exact .inr (.inr ⟨by omega, rfl, rfl, rfl⟩)

/-- Everything but the special zero goes through steps 1 to 3 (R110). -/
theorem exec_cart2pol {a b : Word} {s : State} (ordinary : ¬ (s.cfg.cordicZeroSpecial = .enabled ∧ a = 0 ∧ b = 0)) :
    exec (.cart2pol a b) s = .next (answered s
      (word (libShr s.cfg.shrRound
        ((turns wrap32 s.cfg (Rotor.start a.toInt b.toInt) 14).re * (s.cfg.cordicGainQ16 : Int)) 16))
      (some (word (((turns wrap32 s.cfg (Rotor.start a.toInt b.toInt) 14).acc
        + (preRotate a.toInt b.toInt).2).bmod (2 ^ 16))))) := by
  rw [← sint32_eq_zero_iff a, ← sint32_eq_zero_iff b] at ordinary
  rw [← word_wrap32 (libShr ..), ← shr_eq_libShr, ← wrap16_eq_bmod, ← foldl_microRotate_eq]
  exact if_neg ordinary

end Sys2Proof.Machine
end

section
/-! PROOFS, `42_cordic_rotator.md`: the two inputs on which the turns are known better. The zero pair stays where it is
and gathers the whole angle table (R115); a moderate pair never leaves the signed range (R118). -/

namespace Sys2Proof.Machine

open Sys2Proof.Claims

/-! ### The zero pair -/

/-- `im = 0` takes the add branch, and moves nothing. -/
theorem turn_zero (i : Nat) (t acc : Int) : turn i t ⟨0, 0, acc⟩ = ⟨0, 0, acc + t⟩ := by
  simp [turn_of_nonneg, asr]

theorem turns_zero {f : Int → Int} (keeps : f 0 = 0) (cfg : Cfg) (n : Nat) :
    turns f cfg ⟨0, 0, 0⟩ n = ⟨0, 0, ((cfg.cordicAtan.take n).sum : Nat)⟩ := by
  induction n with
  | zero => rfl
  | succ n ih =>
    have gathered : (cfg.cordicAtan.take (n + 1)).sum = (cfg.cordicAtan.take n).sum + cfg.cordicAtan.getD n 0 := by
      rw [List.take_add_one, List.sum_append, List.getD_eq_getElem?_getD]
      cases cfg.cordicAtan[n]? <;> rfl
    rw [turns, ih, turn_zero, Rotor.narrow, keeps, gathered, Nat.cast_add]

/-! ### Moderate pairs -/

/-- Before micro-rotation `i` on a moderate pair: the real part is not negative and has grown by at most
`2^29 + 2^28 + …`, one term a turn, and the imaginary part is as small as it was. -/
structure Rotor.Moderate (i : Nat) (v : Rotor) : Prop where
  re_nonneg : 0 ≤ v.re
  re_le : v.re + 2 ^ (30 - i) ≤ 3 * 2 ^ 29
  im_ge : -2 ^ 29 ≤ v.im
  im_le : v.im ≤ 2 ^ 29

theorem Rotor.Moderate.re_lt {i : Nat} {v : Rotor} (moderate : v.Moderate i) : v.re < 3 * 2 ^ 29 := by
  have pos : (0 : Int) < 2 ^ (30 - i) := by positivity
  have := moderate.re_le
  omega

theorem asr_bounds {i : Nat} (small : i ≤ 29) {n : Int} (lo : -2 ^ 29 ≤ n) (hi : n ≤ 2 ^ 29) :
    -2 ^ (29 - i) ≤ asr n i ∧ asr n i ≤ 2 ^ (29 - i) := by
  have pos : (0 : Int) < 2 ^ i := by positivity
  have whole : (2 ^ (29 - i) * 2 ^ i : Int) = 2 ^ 29 := by rw [← pow_add, Nat.sub_add_cancel small]
  constructor
  · exact (Int.le_ediv_iff_mul_le pos).2 (by rw [neg_mul, whole]; exact lo)
  · exact Int.ediv_le_of_le_mul pos (by rw [whole]; exact hi)

/-- What the real part moves the imaginary part by is at most 2^29: at turns 0 and 1 the bound on the real part is just
tight enough, and from turn 2 on it is divided by at least 4. -/
theorem Rotor.Moderate.asr_re_le {i : Nat} (small : i ≤ 29) {v : Rotor} (moderate : v.Moderate i) :
    asr v.re i ≤ 2 ^ 29 := by
  refine Int.ediv_le_of_le_mul (by positivity) ?_
  match i with
  | 0 | 1 =>
    have := moderate.re_le
    omega
  | i + 2 =>
    have four : (4 : Int) ≤ 2 ^ (i + 2) := by
      rw [pow_add]
      exact le_mul_of_one_le_left (by norm_num) (one_le_pow₀ (by norm_num))
    have := moderate.re_lt
    omega

/-- One turn keeps a moderate pair moderate: either branch of R113 adds to the real part, and moves the imaginary part
toward zero and past it by at most 2^29. -/
theorem moderate_turn {i : Nat} (small : i ≤ 29) {v : Rotor} (moderate : v.Moderate i) (t : Int) :
    (turn i t v).Moderate (i + 1) := by
  have back_le := moderate.asr_re_le small
  obtain ⟨re_nonneg, re_le, im_ge, im_le⟩ := moderate
  obtain ⟨step_ge, step_le⟩ := asr_bounds small im_ge im_le
  have back_nonneg : 0 ≤ asr v.re i := Int.ediv_nonneg re_nonneg (by positivity)
  have halves : (2 ^ (30 - i) : Int) = 2 * 2 ^ (29 - i) := by rw [← pow_succ', Nat.succ_sub small]
  have next : 30 - (i + 1) = 29 - i := by omega
  rcases lt_or_ge v.im 0 with negative | nonneg
  · have step_neg : asr v.im i < 0 := Int.ediv_neg_of_neg_of_pos negative (by positivity)
    rw [turn_of_neg negative]
    constructor <;> simp only [next] <;> omega
  · have step_nonneg : 0 ≤ asr v.im i := Int.ediv_nonneg nonneg (by positivity)
    rw [turn_of_nonneg nonneg]
    constructor <;> simp only [next] <;> omega

theorem Rotor.Moderate.narrow_wrap32 {i : Nat} {v : Rotor} (moderate : v.Moderate i) : v.narrow wrap32 = v := by
  have below := moderate.re_lt
  obtain ⟨re_nonneg, -, im_ge, im_le⟩ := moderate
  rw [Rotor.narrow, wrap32_of_inRange (by omega) (by omega), wrap32_of_inRange (by omega) (by omega)]

theorem moderate_turns {v : Rotor} (moderate : v.Moderate 0) (cfg : Cfg) {n : Nat} (small : n ≤ 30) :
    (turns (fun n => n) cfg v n).Moderate n := by
  induction n with
  | zero => exact moderate
  | succ n ih => exact moderate_turn (by omega) (ih (by omega)) _

/-- No wrap changes a value of a moderate pair (R118). -/
theorem turns_wrap32 {v : Rotor} (moderate : v.Moderate 0) (cfg : Cfg) {n : Nat} (small : n ≤ 30) :
    turns wrap32 cfg v n = turns (fun n => n) cfg v n := by
  induction n with
  | zero => rfl
  | succ n ih =>
    rw [turns, ih (by omega)]
    exact (moderate_turns moderate cfg small).narrow_wrap32

/-- R112 makes a moderate pair of an input with components up to 2^29. -/
theorem moderate_start {a b : Int} (ha : |a| ≤ 2 ^ 29) (hb : |b| ≤ 2 ^ 29) : (Rotor.start a b).Moderate 0 := by
  rw [abs_le] at ha hb
  unfold Rotor.start preRotate
  split_ifs with third second
  · rw [wrap32_of_inRange (by omega) (by omega)]
    constructor <;> dsimp only <;> omega
  · rw [wrap32_of_inRange (by omega) (by omega)]
    constructor <;> dsimp only <;> omega
  · constructor <;> dsimp only <;> omega

theorem libShr_of_zero (round : ShrRound) (n : Nat) : libShr round 0 n = 0 := by
  simpa only [zero_mul] using libShr_mul_pow round 0 n

/-- A legal gain is below one, so it takes no value out of the signed range (R114). -/
theorem libShr_mul_gain_inRange (round : ShrRound) {re : Int} {gain : Nat} (re_nonneg : 0 ≤ re)
    (re_le : re ≤ 2 ^ 31 - 1) (gain_le : gain ≤ 65535) :
    -2 ^ 31 ≤ libShr round (re * (gain : Int)) 16 ∧ libShr round (re * (gain : Int)) 16 ≤ 2 ^ 31 - 1 := by
  have product_nonneg : 0 ≤ re * (gain : Int) := mul_nonneg re_nonneg (by positivity)
  have product_le : re * (gain : Int) ≤ (2 ^ 31 - 1) * 65535 :=
    mul_le_mul re_le (by exact_mod_cast gain_le) (by positivity) (by norm_num)
  obtain ⟨above, below⟩ := abs_lt.1 (abs_libShr_mul_pow_sub_lt round (re * gain) 16)
  omega

end Sys2Proof.Machine
end

section
/-! PROOFS, `42_cordic_rotator.md`: the obligations. -/

namespace Sys2Proof.Proofs

open Sys2Proof.Machine Sys2Proof.Claims

/-- Settles O39: the sequences are the model's own turns, and the equation of CART2POL's answer reads off the last. -/
theorem cart2polFollowsTheRecurrence : Obligations.Cart2polFollowsTheRecurrence := by
  refine fun a b s => ⟨decode_ofWords_cons (i := .cart2pol a b) rfl rfl (by decide), fun ordinary => ?_⟩
  have narrowing : (fun n : Int => n.bmod (2 ^ 32)) = wrap32 := funext fun n => (wrap32_eq_bmod n).symm
  rw [narrowing]
  exact ⟨_, _, _, _, quadrant_start .., rotates_turns wrap32 s.cfg (v := Rotor.start a.toInt b.toInt) rfl,
    exec_cart2pol ordinary⟩

/-- Settles O40: the special case answers at once; without it the zero pair gathers the 14 angles of a legal table. -/
theorem cart2polOfZero : Obligations.Cart2polOfZero := by
  intro s legal
  refine ⟨fun enabled => if_pos ⟨enabled, rfl, rfl⟩, fun disabled => ?_⟩
  obtain ⟨-, -, legalAtan, -⟩ := (Cfg.legal_iff s.cfg).1 legal
  obtain ⟨len, -⟩ := (Cfg.legalAtan_iff s.cfg).1 legalAtan
  have last : turns wrap32 s.cfg (Rotor.start (0 : Word).toInt (0 : Word).toInt) 14 =
      ⟨0, 0, (s.cfg.cordicAtan.sum : Nat)⟩ := by
    have gathered := turns_zero (f := wrap32) rfl s.cfg 14
    rwa [List.take_of_length_le len.le] at gathered
  have offset : (preRotate (0 : Word).toInt (0 : Word).toInt).2 = 0 := rfl
  rw [exec_cart2pol (by simp [disabled]), last, offset, zero_mul, libShr_of_zero, add_zero]
  rfl

/-- Settles O41: a moderate pair stays moderate, so the wrapping turns are the unwrapped ones, and a legal gain keeps
the magnitude in the signed range. -/
theorem cart2polDoesNotWrap : Obligations.Cart2polDoesNotWrap := by
  intro a b s legal ha hb nonzero
  obtain ⟨-, -, -, legalGain, -⟩ := (Cfg.legal_iff s.cfg).1 legal
  obtain ⟨-, gain_le⟩ := (Cfg.legalGain_iff s.cfg).1 legalGain
  have start := moderate_start ha hb
  have run := exec_cart2pol (fun special => nonzero special.2) (s := s)
  rw [turns_wrap32 start s.cfg (by decide)] at run
  refine ⟨_, _, _, _, _, quadrant_start .., rotates_turns _ s.cfg rfl, fun i hi => ?_, ?_, run⟩
  · have moderate := moderate_turns start s.cfg (n := i) (by omega)
    have below := moderate.re_lt
    obtain ⟨re_nonneg, -, im_ge, im_le⟩ := moderate
    rw [abs_lt, abs_lt]
    omega
  · have moderate := moderate_turns start s.cfg (n := 14) (by decide)
    have below := moderate.re_lt
    obtain ⟨lo, hi⟩ := libShr_mul_gain_inRange s.cfg.shrRound moderate.re_nonneg (by omega) gain_le
    exact toInt_word_of_inRange lo hi

end Sys2Proof.Proofs
end

section
/-! PROOFS, `43_clarke_transform.md`: one equation for the answer of CLARKE, with the exact integer whose word the
imaginary part is, and the error of the multiply that FMUL and CLARKE share (R82, R130, R131). -/

namespace Sys2Proof.Machine

open Sys2Proof.Claims

/-- The first phase is answered as it is, and the third is not read (R130). -/
theorem exec_clarke (a b c : Word) (s : State) : exec (.clarke a b c) s =
    .next (answered s a (some (word (libMul s.cfg (wrap32 (a.toInt + 2 * b.toInt)) s.cfg.invSqrt3)))) := by
  have answer : exec (.clarke a b c) s = .next (answered s (word a.toInt)
      (some (word (fixedMul s.cfg (wrap32 (a.toInt + 2 * b.toInt)) s.cfg.invSqrt3)))) := rfl
  rw [answer, word_toInt, fixedMul_eq, word_wrap32]

/-- Where nothing wraps, the word of a multiply is within one unit of the exact product (R82). -/
theorem abs_toInt_word_libMul_sub_lt {cfg : Cfg} {x y : Int}
    (exact : cfg.mulProduct = .int32 → -2 ^ 31 ≤ x * y ∧ x * y ≤ 2 ^ 31 - 1)
    (lo : -2 ^ 31 ≤ libMul cfg x y) (hi : libMul cfg x y ≤ 2 ^ 31 - 1) :
    |(word (libMul cfg x y)).toInt * 2 ^ cfg.fracBits - x * y| < 2 ^ cfg.fracBits := by
  rw [toInt_word_of_inRange lo hi, libMul, libNarrow_of_inRange exact]
  exact abs_libShr_mul_pow_sub_lt ..

end Sys2Proof.Machine
end

section
/-! PROOFS, `43_clarke_transform.md`: the obligations. -/

namespace Sys2Proof.Proofs

open Sys2Proof.Machine Sys2Proof.Claims

/-- Settles O43: the inner sum is not wrapped, so the imaginary part is the word of its multiply. -/
theorem clarkeErrorBelowOneUnit : Obligations.ClarkeErrorBelowOneUnit := by
  intro a b c s sumLo sumHi exact lo hi
  refine ⟨_, exec_clarke a b c s, ?_⟩
  rw [wrap32_of_inRange sumLo sumHi]
  exact abs_toInt_word_libMul_sub_lt exact lo hi

/-- Settles O42, by the equation of CLARKE's answer. -/
theorem clarkeResult : Obligations.ClarkeResult := by
  intro a b c s
  refine ⟨decode_ofWords_cons (i := .clarke a b c) rfl rfl (by decide), ?_⟩
  rw [exec_clarke, wrap32_eq_bmod, word]

end Sys2Proof.Proofs
end

section
/-! PROOFS, `44_integer_sqrt.md`: what the digit-by-digit algorithm keeps (R141). Before iteration `i` the root is the
floor root of the radicand's leading digits in base 4, and the remainder is what it leaves of them. -/

namespace Sys2Proof.Machine

open Sys2Proof.Claims

/-- `v` holds the floor root of `m` and its remainder: a remainder above `2 * root` would admit the next root. -/
structure RootState.FloorRootOf (v : RootState) (m : Nat) : Prop where
  sum : v.root * v.root + v.rem = m
  rem_le : v.rem ≤ 2 * v.root

theorem RootState.FloorRootOf.root_eq_sqrt {v : RootState} {m : Nat} (floor : v.FloorRootOf m) :
    v.root = Nat.sqrt m := by
  obtain ⟨sum, rem_le⟩ := floor
  exact Nat.eq_sqrt.2 ⟨by omega, by linarith⟩

/-- Bringing down the digit `4 ^ i` of the radicand extends the leading digits whose root is held (R141). -/
theorem floorRootOf_rootDigit {v : RootState} {n i : Nat} (floor : v.FloorRootOf (n / 4 ^ (i + 1))) :
    (rootDigit n i v).FloorRootOf (n / 4 ^ i) := by
  obtain ⟨sum, rem_le⟩ := floor
  rw [pow_succ, ← Nat.div_div_eq_div_mul] at sum
  dsimp only [rootDigit]
  split_ifs with taken
  · have square : (2 * v.root + 1) * (2 * v.root + 1) = 4 * (v.root * v.root) + (4 * v.root + 1) := by ring
    constructor <;> dsimp only <;> omega
  · have square : 2 * v.root * (2 * v.root) = 4 * (v.root * v.root) := by ring
    constructor <;> dsimp only <;> omega

theorem floorRootOf_rootDigits {n k : Nat} {v : RootState} (floor : v.FloorRootOf (n / 4 ^ k)) :
    (rootDigits n k v).FloorRootOf n := by
  induction k generalizing v with
  | zero => simpa [rootDigits] using floor
  | succ k ih => exact ih (floorRootOf_rootDigit floor)

/-- The 16 iterations reach every digit of a 32-bit radicand (R140, R141). -/
theorem isqrt_eq_sqrt {n : Nat} (lt : n < 2 ^ 32) : isqrt n = Nat.sqrt n := by
  have start : RootState.FloorRootOf ⟨0, 0⟩ (n / 4 ^ isqrtIter) := by
    rw [Nat.div_eq_of_lt (by simpa [isqrtIter] using lt)]
    exact ⟨rfl, le_rfl⟩
  exact (floorRootOf_rootDigits start).root_eq_sqrt

theorem exec_isqrt (n : Word) (s : State) :
    exec (.isqrt n) s = .next (answered s (BitVec.ofNat 32 (Nat.sqrt n.toNat)) none) := by
  have answer : exec (.isqrt n) s = .next (answered s (BitVec.ofInt 32 (isqrt n.toNat : Nat)) none) := rfl
  rw [answer, BitVec.ofInt_natCast, isqrt_eq_sqrt n.isLt]

end Sys2Proof.Machine
end

section
/-! PROOFS, `44_integer_sqrt.md`: the obligation. -/

namespace Sys2Proof.Proofs

open Sys2Proof.Machine Sys2Proof.Claims

/-- Settles O44: the answer is `Nat.sqrt` of the radicand, so the bounds are the library's. -/
theorem isqrtIsTheFloorRoot : Obligations.IsqrtIsTheFloorRoot := by
  intro n s
  refine ⟨decode_ofWords_cons (i := .isqrt n) rfl rfl (by decide), Nat.sqrt n.toNat, ?_, Nat.sqrt_le _,
    Nat.lt_succ_sqrt _, exec_isqrt n s⟩
  have root_lt : Nat.sqrt n.toNat < 65536 := Nat.sqrt_lt.2 n.isLt
  omega

end Sys2Proof.Proofs
end

section
/-! PROOFS, `45_interpolation_2d.md`: the segment search (R150). The scan stops at the first index whose value reaches
the query; on a rising axis a query that is itself a value of the axis is an end of the segment found. -/

namespace Sys2Proof.Claims

theorem Rising.lt {n : Nat} {V : Nat → Int} (rising : Rising n V) {a b : Nat} (lt : a < b) (hb : b < n) :
    V a < V b := by
  induction b, lt using Nat.le_induction with
  | base => exact rising (a + 1) (by omega) hb
  | succ b above ih => exact (ih (by omega)).trans (rising (b + 1) (by omega) hb)

/-- A query equal to a value of a rising axis is at the upper end of its segment, or at the lower end of the first. -/
theorem Brackets.point_eq {n i k : Nat} {V : Nat → Int} (brackets : Brackets n V (V k) i) (rising : Rising n V)
    (hk : k < n) : k = i ∨ k = i - 1 := by
  obtain ⟨one_le, le, below, reaches⟩ := brackets
  rcases lt_trichotomy k i with before | at_i | after
  · by_cases zero : k = 0
    · have first : ¬ 1 < i := fun inner => (below 1 le_rfl inner).not_gt (zero ▸ rising.lt one_pos (by omega))
      omega
    · exact absurd (below k (by omega) before) (lt_irrefl _)
  · exact .inl at_i
  · exact absurd (rising.lt after hk) (reaches (by omega)).not_gt

theorem Brackets.lt_length {n i : Nat} {V : Nat → Int} {q : Int} (brackets : Brackets n V q i) : i < n := by
  obtain ⟨one_le, le, -, -⟩ := brackets
  omega

theorem Brackets.lower_lt_upper {n i : Nat} {V : Nat → Int} {q : Int} (brackets : Brackets n V q i)
    (rising : Rising n V) : V (i - 1) < V i :=
  rising i brackets.1 brackets.lt_length

theorem Brackets.congr {n i : Nat} {V W : Nat → Int} {q : Int} (brackets : Brackets n V q i)
    (same : ∀ k < n, V k = W k) : Brackets n W q i := by
  obtain ⟨one_le, le, below, reaches⟩ := brackets
  refine ⟨one_le, le, fun j hj lt => ?_, fun inner => ?_⟩
  · rw [← same j (by omega)]
    exact below j hj lt
  · rw [← same i (by omega)]
    exact reaches inner

end Sys2Proof.Claims

namespace Sys2Proof.Machine

open Sys2Proof.Claims

/-- The scan over `k` indices from `i` on passes only values below the query, and stops at one that is not (R150). -/
theorem segFrom_spec (v : List Int) (q : Int) (i k : Nat) :
    i ≤ segFrom v q i k ∧ segFrom v q i k ≤ i + k ∧ (∀ j, i ≤ j → j < segFrom v q i k → v.getD j 0 < q) ∧
      (segFrom v q i k < i + k → q ≤ v.getD (segFrom v q i k) 0) := by
  induction k generalizing i with
  | zero => exact ⟨le_rfl, le_rfl, fun j lo hi => absurd hi lo.not_gt, fun h => absurd h (lt_irrefl _)⟩
  | succ k ih =>
    rw [segFrom]
    split_ifs with reached
    · exact ⟨le_rfl, by omega, fun j lo hi => absurd hi lo.not_gt, fun _ => reached⟩
    · obtain ⟨lo, hi, below, reaches⟩ := ih (i + 1)
      refine ⟨by omega, by omega, fun j hj lt => ?_, fun h => reaches (by omega)⟩
      rcases hj.eq_or_lt with rfl | later
      · exact lt_of_not_ge reached
      · exact below j later lt

theorem brackets_seg {v : List Int} (two : 2 ≤ v.length) (q : Int) :
    Brackets v.length (fun k => v.getD k 0) q (seg v q) := by
  obtain ⟨lo, hi, below, reaches⟩ := segFrom_spec v q 1 (v.length - 2)
  exact ⟨lo, by rw [seg]; omega, below, fun inner => reaches (by rw [seg] at inner; omega)⟩

end Sys2Proof.Machine
end

section
/-! PROOFS, `45_interpolation_2d.md`: the linear formula (R151). The model's `lerp` is the library's; under WIDE its
quotient is the nearest one, so the formula is exact at both ends of a segment. -/

namespace Sys2Proof.Machine

open Sys2Proof.Claims

theorem addHalf_eq (num den : Int) : addHalf num den = if 0 ≤ num then num + |den| / 2 else num - |den| / 2 := by
  simp only [addHalf, Int.abs_eq_natAbs, Int.natCast_ediv, Nat.cast_ofNat, ge_iff_le]

theorem lerp_eq_libLerp (width : Intermediate) (q x0 y0 x1 y1 : Int) :
    lerp width q x0 y0 x1 y1 = libLerp width q x0 y0 x1 y1 := by
  simp only [lerp, libLerp, narrow_eq_libNarrow, wrap32_eq_bmod, tdiv_eq, addHalf_eq]

theorem word_bmod (n : Int) : word (n.bmod (2 ^ 32)) = word n := by
  rw [← wrap32_eq_bmod, word_wrap32]

/-- The rounded quotient of R151, of exact intermediates. -/
def nearestQuotient (num den : Int) : Int := (addHalf num den).tdiv den

theorem libLerp_wide (q x0 y0 x1 y1 : Int) : libLerp .wide q x0 y0 x1 y1 =
    (y0 + nearestQuotient ((q - x0) * (y1 - y0)) (x1 - x0)).bmod (2 ^ 32) := by
  rw [nearestQuotient, addHalf_eq]
  rfl

/-- Truncating after half a denominator is added away from zero rounds to nearest, and a tie away from zero (R151). -/
theorem nearestQuotient_nearest (num : Int) {den : Int} (nonzero : den ≠ 0) :
    2 * |nearestQuotient num den * den - num| ≤ |den| ∧
      (2 * |nearestQuotient num den * den - num| = |den| → |num| ≤ |nearestQuotient num den * den|) := by
  have division : nearestQuotient num den * den + (addHalf num den).tmod den = addHalf num den :=
    Int.tdiv_mul_add_tmod ..
  have small : ((addHalf num den).tmod den).natAbs < den.natAbs := by
    rw [Int.natAbs_tmod]
    exact Nat.mod_lt _ (Int.natAbs_pos.2 nonzero)
  simp only [Int.abs_eq_natAbs]
  rcases le_or_gt 0 num with nonneg | negative
  · have moved : addHalf num den = num + (den.natAbs / 2 : Nat) := if_pos nonneg
    have remainder : 0 ≤ (addHalf num den).tmod den := Int.tmod_nonneg _ (by omega)
    omega
  · have moved : addHalf num den = num - (den.natAbs / 2 : Nat) := if_neg (by omega)
    have remainder : 0 ≤ (-addHalf num den).tmod den := Int.tmod_nonneg _ (by omega)
    rw [Int.neg_tmod] at remainder
    omega

theorem nearestQuotient_mul (c : Int) {den : Int} (nonzero : den ≠ 0) : nearestQuotient (c * den) den = c := by
  have error := (nearestQuotient_nearest (c * den) nonzero).1
  rw [← sub_mul, abs_mul, ← mul_assoc] at error
  have less_than_one := le_of_mul_le_mul_right (error.trans_eq (one_mul _).symm) (abs_pos.2 nonzero)
  have zero : nearestQuotient (c * den) den - c = 0 := Int.abs_lt_one_iff.1 (by omega)
  omega

/-- Under WIDE only the sum wraps, and the quotient is the nearest one, a tie taken away from zero (R151). -/
theorem libLerp_wide_nearest {x0 x1 : Int} (distinct : x0 ≠ x1) (q y0 y1 : Int) :
    ∃ quo, libLerp .wide q x0 y0 x1 y1 = (y0 + quo).bmod (2 ^ 32) ∧
      2 * |quo * (x1 - x0) - (q - x0) * (y1 - y0)| ≤ |x1 - x0| ∧
      (2 * |quo * (x1 - x0) - (q - x0) * (y1 - y0)| = |x1 - x0| → |(q - x0) * (y1 - y0)| ≤ |quo * (x1 - x0)|) :=
  ⟨_, libLerp_wide .., nearestQuotient_nearest _ (sub_ne_zero.2 distinct.symm)⟩

section
variable {x0 x1 : Int} (distinct : x0 ≠ x1) (y0 y1 : Int)
include distinct

/-- The formula returns the first point's value at the first point (R154). -/
theorem libLerp_wide_lower : libLerp .wide x0 x0 y0 x1 y1 = y0.bmod (2 ^ 32) := by
  have quotient : nearestQuotient 0 (x1 - x0) = 0 := by
    simpa using nearestQuotient_mul 0 (sub_ne_zero.2 distinct.symm)
  rw [libLerp_wide, sub_self, zero_mul, quotient, add_zero]

/-- The formula returns the second point's value at the second point (R154). -/
theorem libLerp_wide_upper : libLerp .wide x1 x0 y0 x1 y1 = y1.bmod (2 ^ 32) := by
  rw [libLerp_wide, mul_comm, nearestQuotient_mul _ (sub_ne_zero.2 distinct.symm), add_sub_cancel]

end

/-- At a value of a rising axis the formula returns what stands there, from either end of the segment (R154, R173). -/
theorem libLerp_wide_of_point {n i k : Nat} {V : Nat → Int} (rising : Rising n V)
    (brackets : Brackets n V (V k) i) (hk : k < n) (W : Nat → Int) :
    libLerp .wide (V k) (V (i - 1)) (W (i - 1)) (V i) (W i) = (W k).bmod (2 ^ 32) := by
  have distinct := (brackets.lower_lt_upper rising).ne
  rcases brackets.point_eq rising hk with rfl | rfl
  · exact libLerp_wide_upper distinct ..
  · exact libLerp_wide_lower distinct ..

/-- A difference of two words that is positive has a word that is not zero (R151). -/
theorem libNarrow_ne_zero (width : Intermediate) {d : Int} (pos : 1 ≤ d) (le : d ≤ 2 ^ 32 - 1) :
    libNarrow width d ≠ 0 := by
  rw [← narrow_eq_libNarrow]
  cases width with
  | int32 =>
    rw [narrow, wrap32]
    omega
  | wide =>
    rw [narrow]
    omega

end Sys2Proof.Machine
end

section
/-! PROOFS, `45_interpolation_2d.md`: tables that read, as functions of the index (R152, R170), and what the order check
and the segment search say of them (R150, R153). -/

namespace Sys2Proof.Machine

open Sys2Proof.Claims

/-! ### Columns of a table -/

/-- The first `n` values of a column, as a table read returns them. -/
abbrev column {α : Type} (n : Nat) (V : Nat → α) : List α := (List.range n).map V

theorem getD_column {n k : Nat} (hk : k < n) (V : Nat → Int) : (column n V).getD k 0 = V k := by
  simp [hk]

/-- The order check is R153's and R172's. -/
theorem ascending_column_iff (n : Nat) (V : Nat → Int) : ascending (column n V) = true ↔ Rising n V := by
  rw [ascending_iff_pairwise, ← List.isChain_iff_pairwise, List.isChain_map, List.isChain_range]
  refine ⟨fun chain k one_le hk => ?_, fun rising m hm => rising (m + 1) (by omega) (by omega)⟩
  have := chain (k - 1) (by omega)
  rwa [Nat.succ_eq_add_one, Nat.sub_add_cancel one_le] at this

theorem brackets_seg_column {n : Nat} (two : 2 ≤ n) (V : Nat → Int) (q : Int) :
    Brackets n V q (seg (column n V) q) := by
  have brackets := brackets_seg (v := column n V) (by simpa using two) q
  simp only [List.length_map, List.length_range] at brackets
  exact brackets.congr fun k hk => getD_column hk V

/-! ### Reads of whole tables -/

variable {s : State}

theorem State.readWords_of_reads {addr n : Nat} {V : Nat → Int}
    (reads : ∀ k < n, s.memRead (addr + 4 * k) = .ok (V k)) : s.readWords addr n = .ok (column n V) :=
  (s.readWords_eq_ok_iff addr n _).2 ⟨by simp, fun k hk => by simpa using reads k (by simpa using hk)⟩

theorem State.readPoints_of_table2d {base n : Nat} {X Y : Nat → Int} (table : Table2d s base n X Y) :
    s.readPoints base n = .ok (column n fun k => (X k, Y k)) :=
  (s.readPoints_eq_ok_iff base n _).2 ⟨by simp, fun k hk => by simpa using table k (by simpa using hk)⟩

/-- The first word of a 2-D table that does not read is the table's failure (R152). -/
theorem State.readPoints_of_unread {base n k : Nat} {e : AccessFault} (hk : k < 2 * n)
    (before : ∀ j < k, ∃ v, s.memRead (base + 4 * j) = .ok v) (at_k : s.memRead (base + 4 * k) = .error e) :
    s.readPoints base n = .error e := by
  rw [State.readPoints_eq, (s.readWords_eq_error_iff base (2 * n) e).2 ⟨k, hk, before, at_k⟩]

end Sys2Proof.Machine
end

section
/-! PROOFS, `45_interpolation_2d.md`: one equation for each outcome of INTERP2D (R152, R153). -/

namespace Sys2Proof.Machine

open Sys2Proof.Claims

theorem encode_interp2d (x n base : Word) : encode (.interp2d x n base) = [0x00000050, x, n, base] :=
  congrArg (· :: [x, n, base]) (by decide)

variable {s : State} {n base : Word} {X Y : Nat → Int}

theorem exec_interp2d_unread {e : AccessFault} (unread : s.readPoints base.toNat n.toNat = .error e) (x : Word) :
    exec (.interp2d x n base) s = .next (faulted s (.tableAccess [0x00000050, x, n, base] e)) := by
  simp only [exec, execInterp2d, uint32, unread, encode_interp2d]
  rfl

/-- INTERP2D on a table that reads: the checks of R153, and then the formula. -/
theorem exec_interp2d_of_table (table : Table2d s base.toNat n.toNat X Y) (x : Word) : exec (.interp2d x n base) s =
    if n.toNat < 2 then s.raise (.precondition [0x00000050, x, n, base] .interp2d .tooFewPoints)
    else if ascending (column n.toNat X) = false then
      s.raise (.precondition [0x00000050, x, n, base] .interp2d .notAscending)
    else s.respond (interpolate2d s.cfg.interpArith (column n.toNat fun k => (X k, Y k)) x.toInt) := by
  simp only [exec, execInterp2d, uint32, State.readPoints_of_table2d table, encode_interp2d, List.map_map]
  rfl

/-- The points on either side of the segment, and R151's formula through them. -/
theorem interpolate2d_column {n : Nat} (two : 2 ≤ n) (width : Intermediate) (X Y : Nat → Int) (q : Int) :
    ∃ i, Brackets n X q i ∧ interpolate2d width (column n fun k => (X k, Y k)) q =
      libLerp width q (X (i - 1)) (Y (i - 1)) (X i) (Y i) := by
  have brackets := brackets_seg_column two X q
  have upper := brackets.lt_length
  refine ⟨_, brackets, ?_⟩
  have xs : (column n fun k => (X k, Y k)).map (·.1) = column n X := List.map_map
  have ys : (column n fun k => (X k, Y k)).map (·.2) = column n Y := List.map_map
  simp (disch := omega) only [interpolate2d, xs, ys, lerp_eq_libLerp, getD_column]

/-- INTERP2D on a table that meets R153 (R152 step 3). -/
theorem exec_interp2d_of_rising (table : Table2d s base.toNat n.toNat X Y) (two : 2 ≤ n.toNat)
    (rising : Rising n.toNat X) (x : Word) : ∃ i, Brackets n.toNat X x.toInt i ∧ exec (.interp2d x n base) s =
      .next (answered s (word (libLerp s.cfg.interpArith x.toInt (X (i - 1)) (Y (i - 1)) (X i) (Y i))) none) := by
  obtain ⟨i, brackets, value⟩ := interpolate2d_column two s.cfg.interpArith X Y x.toInt
  refine ⟨i, brackets, ?_⟩
  rw [exec_interp2d_of_table table, if_neg (by omega), if_neg (by simpa using (ascending_column_iff ..).2 rising),
    value]
  rfl

end Sys2Proof.Machine
end

section
/-! PROOFS, `45_interpolation_2d.md`: the obligations. -/

namespace Sys2Proof.Proofs

open Sys2Proof.Machine Sys2Proof.Claims

/-- Settles O45, by what the scan passes and where it stops. -/
theorem segmentSearchBrackets : Obligations.SegmentSearchBrackets :=
  fun _ q two => brackets_seg two q

/-- Settles O46: under WIDE the quotient is the nearest one. -/
theorem linearFormulaRounds : Obligations.LinearFormulaRounds := by
  intro q x0 y0 x1 y1
  refine ⟨fun width => lerp_eq_libLerp .., fun distinct => ?_, fun pos le width => libNarrow_ne_zero width pos le⟩
  rw [lerp_eq_libLerp]
  exact libLerp_wide_nearest distinct q y0 y1

/-- Settles O47, by the equation of each outcome. -/
theorem interp2dOutcomes : Obligations.Interp2dOutcomes := by
  intro x n base s
  refine ⟨decode_ofWords_cons (i := .interp2d x n base) rfl rfl (by decide),
    fun k e hk before at_k => exec_interp2d_unread (State.readPoints_of_unread hk before at_k) x,
    fun X Y table => ⟨fun few => ?_, fun two falls => ?_, fun two rising => exec_interp2d_of_rising table two rising x⟩⟩
  · rw [exec_interp2d_of_table table, if_pos few]
    rfl
  · rw [exec_interp2d_of_table table, if_neg (by omega), if_pos (by simpa using mt (ascending_column_iff ..).1 falls)]
    rfl

/-- Settles O48: a query at a point is at an end of its segment, where the formula is exact; the sum of R151, before its
last wrap, is as near to the line as its quotient is to the exact one. -/
theorem interp2dIsExactAtPoints : Obligations.Interp2dIsExactAtPoints := by
  intro x n base s X Y wide two table rising
  obtain ⟨i, brackets, run⟩ := exec_interp2d_of_rising table two rising x
  rw [wide] at run
  refine ⟨fun k hk at_k => ?_, ?_⟩
  · rw [at_k] at brackets run
    rw [run, libLerp_wide_of_point rising brackets hk Y, word_bmod, word]
  · have lt := brackets.lower_lt_upper rising
    obtain ⟨quo, value, error, -⟩ := libLerp_wide_nearest lt.ne x.toInt (Y (i - 1)) (Y i)
    refine ⟨i, Y (i - 1) + quo, brackets, ?_, ?_⟩
    · rw [run, value, word_bmod, word]
    · rw [add_sub_cancel_left]
      exact error.trans_eq (abs_of_pos (sub_pos.2 lt))

end Sys2Proof.Proofs
end

section
/-! PROOFS, `46_interpolation_3d.md`: INTERP3D on a table that reads: the checks of R172, and then the formula along x
in two rows and along y between them (R171). -/

namespace Sys2Proof.Machine

open Sys2Proof.Claims

theorem encode_interp3d (x y nx ny xbase ybase zbase : Word) :
    encode (.interp3d x y nx ny xbase ybase zbase) = [0x00000060, x, y, nx, ny, xbase, ybase, zbase] :=
  congrArg (· :: [x, y, nx, ny, xbase, ybase, zbase]) (by decide)

/-- The grid that a table read returns: the two axes, and the rows of `Z` one after another (R170). -/
def gridOf (nx ny : Nat) (X Y : Nat → Int) (Z : Nat → Nat → Int) : Grid :=
  ⟨column nx X, column ny Y, column (nx * ny) fun m => Z (m % nx) (m / nx)⟩

theorem State.readGrid_of_table3d {s : State} {nx ny xbase ybase zbase : Nat} {X Y : Nat → Int} {Z : Nat → Nat → Int}
    (table : Table3d s nx ny xbase ybase zbase X Y Z) :
    s.readGrid nx ny xbase ybase zbase = .ok (gridOf nx ny X Y Z) := by
  obtain ⟨xs, ys, zs⟩ := table
  have rows : ∀ m < nx * ny, s.memRead (zbase + 4 * m) = .ok (Z (m % nx) (m / nx)) := fun m hm => by
    have pos : 0 < nx := pos_of_mul_pos_left (Nat.zero_lt_of_lt hm) (Nat.zero_le ny)
    have at_m := zs (m / nx) (Nat.div_lt_of_lt_mul hm) (m % nx) (Nat.mod_lt m pos)
    rwa [Nat.div_add_mod'] at at_m
  simp only [State.readGrid, State.readWords_of_reads xs, State.readWords_of_reads ys, State.readWords_of_reads rows,
    gridOf]

section
variable {nx ny : Nat} {X Y : Nat → Int} {Z : Nat → Nat → Int}

@[simp] theorem gridOf_xs : (gridOf nx ny X Y Z).xs = column nx X := rfl

@[simp] theorem gridOf_ys : (gridOf nx ny X Y Z).ys = column ny Y := rfl

theorem getD_gridOf_zs {i j : Nat} (hi : i < nx) (hj : j < ny) :
    (gridOf nx ny X Y Z).zs.getD (j * nx + i) 0 = Z i j := by
  have inside : j * nx + i < nx * ny := by nlinarith
  rw [gridOf, getD_column inside, Nat.mul_add_mod_self_right, Nat.mod_eq_of_lt hi, mul_comm,
    Nat.mul_add_div (Nat.zero_lt_of_lt hi), Nat.div_eq_of_lt hi, add_zero]

end

/-- R171's formula along x in row `j`, on the segment that ends at `i`. -/
def rowLerp (width : Intermediate) (q : Int) (X : Nat → Int) (Z : Nat → Nat → Int) (i j : Nat) : Int :=
  libLerp width q (X (i - 1)) (Z (i - 1) j) (X i) (Z i j)

theorem interpolate3d_gridOf {nx ny : Nat} (two_x : 2 ≤ nx) (two_y : 2 ≤ ny) (width : Intermediate) (X Y : Nat → Int)
    (Z : Nat → Nat → Int) (qx qy : Int) : ∃ i j, Brackets nx X qx i ∧ Brackets ny Y qy j ∧
      interpolate3d width (gridOf nx ny X Y Z) qx qy =
        libLerp width qy (Y (j - 1)) (rowLerp width qx X Z i (j - 1)) (Y j) (rowLerp width qx X Z i j) := by
  have along_x := brackets_seg_column two_x X qx
  have along_y := brackets_seg_column two_y Y qy
  refine ⟨_, _, along_x, along_y, ?_⟩
  have hi := along_x.lt_length
  have hj := along_y.lt_length
  simp (disch := omega) only [interpolate3d, gridOf_xs, gridOf_ys, List.length_map, List.length_range, lerp_eq_libLerp,
    rowLerp, getD_gridOf_zs, getD_column]

section
variable {s : State} {nx ny xbase ybase zbase : Word} {X Y : Nat → Int} {Z : Nat → Nat → Int}
  (table : Table3d s nx.toNat ny.toNat xbase.toNat ybase.toNat zbase.toNat X Y Z)
include table

/-- INTERP3D on a table that reads: the checks of R172, and then the formula. -/
theorem exec_interp3d_of_table (x y : Word) : exec (.interp3d x y nx ny xbase ybase zbase) s =
    if nx.toNat < 2 ∨ ny.toNat < 2 then
      s.raise (.precondition [0x00000060, x, y, nx, ny, xbase, ybase, zbase] .interp3d .tooFewPoints)
    else if ascending (column nx.toNat X) = false ∨ ascending (column ny.toNat Y) = false then
      s.raise (.precondition [0x00000060, x, y, nx, ny, xbase, ybase, zbase] .interp3d .notAscending)
    else s.respond (interpolate3d s.cfg.interpArith (gridOf nx.toNat ny.toNat X Y Z) x.toInt y.toInt) := by
  simp only [exec, execInterp3d, uint32, State.readGrid_of_table3d table, encode_interp3d]
  rfl

/-- INTERP3D on a table that meets R172 (R171 step 3). -/
theorem exec_interp3d_of_rising (two_x : 2 ≤ nx.toNat) (two_y : 2 ≤ ny.toNat) (rising_x : Rising nx.toNat X)
    (rising_y : Rising ny.toNat Y) (x y : Word) :
    ∃ i j, Brackets nx.toNat X x.toInt i ∧ Brackets ny.toNat Y y.toInt j ∧
      exec (.interp3d x y nx ny xbase ybase zbase) s = .next (answered s (word (libLerp s.cfg.interpArith y.toInt
        (Y (j - 1)) (rowLerp s.cfg.interpArith x.toInt X Z i (j - 1))
        (Y j) (rowLerp s.cfg.interpArith x.toInt X Z i j))) none) := by
  obtain ⟨i, j, along_x, along_y, value⟩ := interpolate3d_gridOf two_x two_y s.cfg.interpArith X Y Z x.toInt y.toInt
  have ordered : ¬ (ascending (column nx.toNat X) = false ∨ ascending (column ny.toNat Y) = false) := by
    simp [(ascending_column_iff ..).2 rising_x, (ascending_column_iff ..).2 rising_y]
  refine ⟨i, j, along_x, along_y, ?_⟩
  rw [exec_interp3d_of_table table, if_neg (by omega), if_neg ordered, value]
  rfl

end

end Sys2Proof.Machine
end

section
/-! PROOFS, `46_interpolation_3d.md`: the obligation. -/

namespace Sys2Proof.Proofs

open Sys2Proof.Machine Sys2Proof.Claims

/-- Settles O50: on row `j` the formula along y returns what the one along x does in that row, and that returns the
grid's value where x is a grid value too. -/
theorem interp3dIsExactOnTheGrid : Obligations.Interp3dIsExactOnTheGrid := by
  intro x y nx ny xbase ybase zbase s X Y Z wide two_x two_y table rising_x rising_y j hj at_j
  obtain ⟨i, j', along_x, along_y, run⟩ := exec_interp3d_of_rising table two_x two_y rising_x rising_y x y
  rw [at_j] at along_y
  rw [wide, at_j, libLerp_wide_of_point rising_y along_y hj, word_bmod] at run
  refine ⟨fun k hk at_k => ?_, i, along_x, run⟩
  rw [at_k] at along_x run
  rw [run, rowLerp, libLerp_wide_of_point rising_x along_x hk (Z · j), word_bmod, word]

end Sys2Proof.Proofs
end

section
/-! PROOFS, `46_interpolation_3d.md`: a 3-D table in the order of its reads (R171). Each address of that order is in one
of three runs of words, and a run that reads hands on to the next. -/

namespace Sys2Proof.Machine

open Sys2Proof.Claims

section
variable {nx ny xbase ybase zbase : Nat}

theorem gridAddr_xAxis {i : Nat} (hi : i < nx) : gridAddr nx ny xbase ybase zbase i = xbase + 4 * i := if_pos hi

theorem gridAddr_yAxis {j : Nat} (hj : j < ny) : gridAddr nx ny xbase ybase zbase (nx + j) = ybase + 4 * j := by
  rw [gridAddr, if_neg (by omega), if_pos (by omega), Nat.add_sub_cancel_left]

theorem gridAddr_grid (k : Nat) : gridAddr nx ny xbase ybase zbase (nx + ny + k) = zbase + 4 * k := by
  rw [gridAddr, if_neg (by omega), if_neg (by omega), Nat.sub_sub, Nat.add_sub_cancel_left]

end

variable {s : State}

theorem State.readWords_ok_of_reads {addr n : Nat} (reads : ∀ k < n, ∃ v, s.memRead (addr + 4 * k) = .ok v) :
    ∃ vs, s.readWords addr n = .ok vs := by
  cases words : s.readWords addr n with
  | ok vs => exact ⟨vs, rfl⟩
  | error e =>
    obtain ⟨k, hk, -, at_k⟩ := (s.readWords_eq_error_iff addr n e).1 words
    obtain ⟨v, read⟩ := reads k hk
    exact absurd (read.symm.trans at_k) (by simp)

/-- The first word of a 3-D table that does not read, in R171's order, is the table's failure. -/
theorem State.readGrid_of_unread {nx ny xbase ybase zbase m : Nat} {e : AccessFault} (hm : m < nx + ny + nx * ny)
    (before : ∀ j < m, ∃ v, s.memRead (gridAddr nx ny xbase ybase zbase j) = .ok v)
    (at_m : s.memRead (gridAddr nx ny xbase ybase zbase m) = .error e) :
    s.readGrid nx ny xbase ybase zbase = .error e := by
  by_cases in_x : m < nx
  · have xs := (s.readWords_eq_error_iff xbase nx e).2 ⟨m, in_x,
      fun i hi => gridAddr_xAxis (hi.trans in_x) ▸ before i hi, gridAddr_xAxis in_x ▸ at_m⟩
    simp only [State.readGrid, xs]
  obtain ⟨k, rfl⟩ := Nat.exists_eq_add_of_le (Nat.le_of_not_lt in_x)
  obtain ⟨X, xs⟩ := State.readWords_ok_of_reads fun i (hi : i < nx) => gridAddr_xAxis hi ▸ before i (by omega)
  by_cases in_y : k < ny
  · have ys := (s.readWords_eq_error_iff ybase ny e).2 ⟨k, in_y,
      fun j hj => gridAddr_yAxis (hj.trans in_y) ▸ before (nx + j) (by omega), gridAddr_yAxis in_y ▸ at_m⟩
    simp only [State.readGrid, xs, ys]
  obtain ⟨l, rfl⟩ := Nat.exists_eq_add_of_le (Nat.le_of_not_lt in_y)
  obtain ⟨Y, ys⟩ := State.readWords_ok_of_reads fun j (hj : j < ny) => gridAddr_yAxis hj ▸ before (nx + j) (by omega)
  rw [← Nat.add_assoc] at at_m before hm
  have zs := (s.readWords_eq_error_iff zbase (nx * ny) e).2 ⟨l, by omega,
    fun k hk => gridAddr_grid k ▸ before (nx + ny + k) (by omega), gridAddr_grid l ▸ at_m⟩
  simp only [State.readGrid, xs, ys, zs]

theorem exec_interp3d_unread {nx ny xbase ybase zbase : Word} {e : AccessFault}
    (unread : s.readGrid nx.toNat ny.toNat xbase.toNat ybase.toNat zbase.toNat = .error e) (x y : Word) :
    exec (.interp3d x y nx ny xbase ybase zbase) s =
      .next (faulted s (.tableAccess [0x00000060, x, y, nx, ny, xbase, ybase, zbase] e)) := by
  simp only [exec, execInterp3d, uint32, unread, encode_interp3d]
  rfl

end Sys2Proof.Machine
end

section
/-! PROOFS, `46_interpolation_3d.md`: the obligation on the outcomes. -/

namespace Sys2Proof.Proofs

open Sys2Proof.Machine Sys2Proof.Claims

/-- Settles O49, by the equation of each outcome. -/
theorem interp3dOutcomes : Obligations.Interp3dOutcomes := by
  intro x y nx ny xbase ybase zbase s
  refine ⟨decode_ofWords_cons (i := .interp3d x y nx ny xbase ybase zbase) rfl rfl (by decide),
    fun m e hm before at_m => exec_interp3d_unread (State.readGrid_of_unread hm before at_m) x y,
    fun X Y Z table => ⟨fun few => ?_, fun two_x two_y falls => ?_, fun two_x two_y rising_x rising_y =>
      exec_interp3d_of_rising table two_x two_y rising_x rising_y x y⟩⟩
  · rw [exec_interp3d_of_table table, if_pos few]
    rfl
  · have unordered : ascending (column nx.toNat X) = false ∨ ascending (column ny.toNat Y) = false := by
      rwa [← ascending_column_iff, ← ascending_column_iff, not_and_or, Bool.not_eq_true, Bool.not_eq_true] at falls
    rw [exec_interp3d_of_table table, if_neg (by omega), if_pos unordered]
    rfl

end Sys2Proof.Proofs
end

section
/-! PROOFS, `60_exceptions.md`: a fault and the command it is about (R190, R191). A fault records its command's words, and
these words name the command. -/

namespace Sys2Proof.Machine

/-- Where a command faults, the fault records the command's own words (R190). -/
theorem exec_fault_records {i : Instr} {s : State} {f : CommandFault} (run : exec i s = .next (s.fail f)) :
    f.command = encode i := by
  rcases exec_answers_or_fails i s with ⟨r, e⟩ | ⟨g, e, records⟩
  · have recorded := congrArg State.faultRecord (Host.Outcome.next.inj (run.symm.trans e))
    simp at recorded
  · have recorded := congrArg State.faultRecord (Host.Outcome.next.inj (run.symm.trans e))
    have : f = g := by simpa using recorded
    exact this ▸ records

/-- Only a command itself has the words of a well-formed command (R65): both decode to the one command. -/
theorem eq_of_encode_eq {i j : Instr} (wf : j.wellFormed = true) (words : encode i = encode j) : i = j := by
  have decoded : decode (Command.ofWords (encode i)) = .ok j := words ▸ decode_ofWords_encode wf
  have same (wf_i : i.wellFormed = true) : i = j := Except.ok.inj ((decode_ofWords_encode wf_i).symm.trans decoded)
  cases i with
  | conv fs fd v =>
    rw [decode_eq_ok_iff] at decoded
    obtain ⟨-, -, ⟨-, fs_small, fd_small, -⟩ | ⟨other, -⟩⟩ := decoded
    · exact same (wellFormed_conv (by simpa [Command.ofWords, encode] using fs_small)
        (by simpa [Command.ofWords, encode] using fd_small) v)
    · exact absurd (opcField_commandWord fd fs 0x01) other
  | _ => exact same rfl

end Sys2Proof.Machine
end

section
/-! PROOFS, `60_exceptions.md`: the obligations. -/

namespace Sys2Proof.Proofs

open Sys2Proof.Machine Sys2Proof.Claims

/-- Settles O34: a `DIVIDE_BY_ZERO` that Table FAULTS allows has the words of an FDIV by 0, and so has the command that
raised it. -/
theorem onlyFdivDividesByZero : Obligations.OnlyFdivDividesByZero := by
  refine ⟨exec_fdiv_zero, fun i s cmd run => ?_⟩
  obtain ⟨a, sound⟩ : ∃ a, cmd = encode (.fdiv a 0) := exec_fault_sound run
  have records : cmd = encode i := exec_fault_records run
  obtain rfl : i = .fdiv a 0 := eq_of_encode_eq rfl (records.symm.trans sound)
  exact ⟨a, rfl, sound.trans (congrArg (· :: [a, 0]) (by decide))⟩

/-- Settles O9, by the cases of a step: a response, a fault and a refusal each append to one of the lists, and every other
step keeps all three. -/
theorem recordsOnlyGrow : Obligations.RecordsOnlyGrow := by
  intro s t h
  cases step_next_cases h with
  | answers _ _ _ _ _ _ _ next => exact next ▸ ⟨List.prefix_rfl, List.prefix_rfl, List.prefix_append ..⟩
  | fails _ _ _ _ _ _ _ _ next => exact next ▸ ⟨List.prefix_append .., List.prefix_rfl, List.prefix_rfl⟩
  | refuses _ _ _ _ _ next => exact next ▸ ⟨List.prefix_rfl, List.prefix_append .., List.prefix_rfl⟩
  | _ =>
    subst t
    exact ⟨List.prefix_rfl, List.prefix_rfl, List.prefix_rfl⟩

end Sys2Proof.Proofs
end

section
/-! PROOFS, `70_reset_and_hazards.md`: the memory of a launch, and the steps of a block at the end of its run (R211,
R213, R214). -/

namespace Sys2Proof.Machine

open Sys2Proof.Claims

/-- Of bytes written one after another into an empty memory, the last one given for an address is read there. -/
theorem Memory.read_foldl_write (bytes : List Host.Cell) (addr : Nat) :
    Memory.read (bytes.foldl (fun m x => Memory.write m x.1 x.2) []) addr =
      (bytes.reverse.find? fun x => x.1 == addr).map (·.2) := by
  induction bytes using List.reverseRecOn with
  | nil => rfl
  | append_singleton bytes x ih =>
    rw [List.foldl_concat, List.reverse_concat]
    by_cases here : x.1 = addr
    · rw [← here, Memory.read_write_same, List.find?_cons_of_pos (by simp), Option.map_some]
    · rw [Memory.read_write_other _ _ (Ne.symm here), ih, List.find?_cons_of_neg (by simpa using here)]

/-- Bytes outside the address space say nothing of an address inside it. -/
theorem find?_reverse_filter_inside (bytes : List Host.Cell) {addr : Nat} (inside : addr < memoryBytes) :
    ((bytes.filter fun x => decide (x.1 < memoryBytes)).reverse.find? fun x => x.1 == addr) =
      bytes.reverse.find? fun x => x.1 == addr := by
  rw [← List.filter_reverse, List.find?_filter]
  congr 1
  funext x
  by_cases here : x.1 = addr
  · simp [here, inside]
  · simp [here]

/-- A block with no move to wait for stays as it is (R211). -/
theorem step_wait {s : State} (running : s.stop = none) (idle : s.phase = .idle) (script : s.script = []) :
    step s = .next s := by
  rw [step_of_idle running idle, State.idleStep, script]

/-- A reset changes nothing of a running idle block (R210). -/
theorem State.assertReset_eq_self {s : State} (running : s.stop = none) (idle : s.phase = .idle) :
    s.assertReset = s := by
  rw [State.assertReset, ← running, ← idle]

/-- A run at its end is at its end after a move of the requester, whatever that writes (R215). -/
theorem State.Final.move {s : State} {m : HostMove} {rest : List HostMove} (final : s.Final)
    (script : s.script = m :: rest) (memory : Memory) : State.Final { s with script := rest, memory := memory } := by
  obtain ⟨issued, ended⟩ := final
  exact ⟨fun m hm => issued m (script ▸ List.mem_cons_of_mem _ hm), ended⟩

/-- At the end of a run a move of the requester changes nothing but the script and table memory, unless it is a write
past the last byte (log 13). -/
theorem step_of_final {s : State} {m : HostMove} {rest : List HostMove} (final : s.Final) (running : s.stop = none)
    (script : s.script = m :: rest) :
    (∃ memory : Memory, step s = .next { s with script := rest, memory := memory }) ∨
      ∃ width addr value, m = .write width addr value ∧ 2 ^ 32 < addr.toNat + widthBytes width ∧
        step s = .fault (.noSuchByte (2 ^ 32)) := by
  obtain ⟨issued, -, idle, -, -⟩ := final
  cases m with
  | issue cmd operands =>
    have := issued (.issue cmd operands) (script ▸ List.mem_cons_self ..)
    cases this
  | write width addr value =>
    have may : MayWrite s addr.toNat (widthBytes width) := fun c _ busy => by simp [idle] at busy
    rcases Nat.lt_or_ge (2 ^ 32) (addr.toNat + widthBytes width) with past | fits
    · exact .inr ⟨width, addr, value, rfl, past,
        (step_write_of_mayWrite script may).trans (State.hostWrite_past _ value past)⟩
    · exact .inl ⟨_, step_write_fits script may fits⟩
  | reset =>
    have unchanged : State.assertReset { s with script := rest } = { s with script := rest } :=
      State.assertReset_eq_self running idle
    exact .inl ⟨s.memory, (step_reset script).trans (congrArg _ unchanged)⟩
  | await => exact .inl ⟨s.memory, step_await (.inr idle) script⟩

end Sys2Proof.Machine
end

section
/-! PROOFS, `70_reset_and_hazards.md`: the obligations. -/

namespace Sys2Proof.Proofs

open Sys2Proof.Machine Sys2Proof.Claims

/-- Settles O20: the state a launch makes, whose memory is written byte by byte from the empty one. -/
theorem launchHoldsItsPremises : Obligations.LaunchHoldsItsPremises := by
  intro cfg bytes admitted script s h
  obtain ⟨-, rfl⟩ := State.launch_eq_ok_iff.1 h
  refine ⟨rfl, rfl, rfl, rfl, rfl, rfl, rfl, rfl, rfl, fun addr inside => ?_⟩
  rw [Memory.read_foldl_write, find?_reverse_filter_inside bytes inside]

/-- Settles O15: a reset is made from every state. -/
theorem resetReturnsToIdle : Obligations.ResetReturnsToIdle :=
  ⟨fun _ _ script => step_reset script, rfl, rfl⟩

/-- Settles O16: with no move left the block waits, and each move that may be left keeps the end of the run. -/
theorem finalStatesWait : Obligations.FinalStatesWait := by
  intro s final running
  have ⟨_, _, idle, _, _⟩ := final
  refine ⟨step_wait running idle, ?_⟩
  cases script : s.script with
  | nil => exact .inl ⟨s, step_wait running idle script, final, running, rfl⟩
  | cons m rest =>
    rcases step_of_final final running script with ⟨memory, made⟩ | ⟨width, addr, value, rfl, past, stops⟩
    · exact .inl ⟨_, made, final.move script memory, running, rfl⟩
    · exact .inr ⟨width, addr, value, rest, rfl, past, stops⟩

end Sys2Proof.Proofs
end
